-- ==== Sys2Proof/Word.lean ====
section
/-! DEFINITION. The word types of the Microputer core: every width the parameter table gives (00_scope.md R6). -/

namespace Sys2Proof

/-- A register value, a memory cell, an immediate: 8 bits, unsigned (R6, R8). -/
abbrev Byte := BitVec 8

/-- One instruction word: 16 bits, bit 15 the most significant (R7, R70). -/
abbrev Word := BitVec 16

/-- A register field: every value 0..15 selects exactly one register, so no index can be out of range (R21, R78). -/
abbrev RegIdx := BitVec 4

/-- The branch target field: an absolute byte address 0..31 (R6, R76). -/
abbrev Addr5 := BitVec 5

/-- The width of the program counter and of the loaded length: 6 bits (R24, R30; D3, D4). -/
abbrev PcWord := BitVec 6

end Sys2Proof
end

