-- ==== Sys2Proof/Config.lean ====
section
/-! DEFINITION. What is fixed for this hardware: the sizes of 00_scope.md R6. Nothing the spec describes has an
undefined value, so there is no free value here (93_implementation_defined.md, U1 to U14). -/

namespace Sys2Proof

/-- The number of memory bytes: addresses 0 to 31 exist and no others (R36, R50). -/
abbrev Config.memSize : Nat := 32

/-- The largest program image in bytes (R6, R64). -/
abbrev Config.maxImage : Nat := 32

/-- What a byte of memory that nothing has written holds: memory is created zeroed (R36). -/
abbrev Config.unlistedByte : Byte := 0

end Sys2Proof
end

