-- ==== Sys2Proof/Syntax.lean ====
section
/-! DEFINITION. The instruction set: one constructor per row of spec/opcode_table.json, all eight (30_encoding.md R79). -/

namespace Sys2Proof

/-- The eight instructions. The operands stand in the order of the assembler syntax, sources first and the destination
last (R83); their types are the widths of their fields, so an operand out of range cannot be written (R21, R77, R78). -/
inductive Instr where
  /-- `LDI R<i> <imm>` (R120) -/
  | ldi (i : RegIdx) (imm : Byte)
  /-- `ADD R<i> R<j> R<k>` (R131) -/
  | add (i j k : RegIdx)
  /-- `AND R<i> R<j> R<k>` (R132) -/
  | and (i j k : RegIdx)
  /-- `OR R<i> R<j> R<k>` (R133) -/
  | or (i j k : RegIdx)
  /-- `XOR R<i> R<j> R<k>` (R134) -/
  | xor (i j k : RegIdx)
  /-- `PRT R<i>` (R151) -/
  | prt (i : RegIdx)
  /-- `RDD R<i>` (R153) -/
  | rdd (i : RegIdx)
  /-- `BLT R<i> R<j> <addr>` (R170) -/
  | blt (i j : RegIdx) (addr : Addr5)
  deriving DecidableEq, Repr

end Sys2Proof
end

