-- ==== Sys2Proof/WellFormed.lean ====
section
/-! DEFINITION. The eight opcodes, an assembler line with numbers of any size, and the check that it is a line of the
language (30_encoding.md R79, R83, R84). An `Instr` holds operands of the fields' own widths, so its line always passes. -/

namespace Sys2Proof

/-- The eight opcode values, under their mnemonics (R79). -/
inductive Opcode where
  | ldi | add | and | or | xor | prt | rdd | blt
  deriving DecidableEq, Repr

/-- One operand of an assembler line, as it is written: `R<n>` or a plain number (R83). -/
inductive Operand where
  | reg (n : Nat)
  | num (n : Nat)
  deriving DecidableEq, Repr

/-- An assembler line: a mnemonic and operands, in range or not (R83). -/
structure Line where
  op : Opcode
  operands : List Operand
  deriving DecidableEq, Repr

/-- `<i>`, `<j>` and `<k>` are 0..15 (R84). -/
def Operand.isReg : Operand → Bool
  | .reg n => decide (n < 16)
  | .num _ => false

/-- `<imm>` is 0..255 (R84). -/
def Operand.isImm : Operand → Bool
  | .num n => decide (n < 256)
  | .reg _ => false

/-- `<addr>` is 0..31, odd ones included (R84). -/
def Operand.isAddr : Operand → Bool
  | .num n => decide (n < 32)
  | .reg _ => false

/-- The check of one line: the operands its mnemonic's form has, in that order, each in its range (R83, R84). -/
def Line.wellFormed (l : Line) : Bool :=
  match l.op, l.operands with
  | .ldi, [a, b] => a.isReg && b.isImm
  | .add, [a, b, c] => a.isReg && b.isReg && c.isReg
  | .and, [a, b, c] => a.isReg && b.isReg && c.isReg
  | .or, [a, b, c] => a.isReg && b.isReg && c.isReg
  | .xor, [a, b, c] => a.isReg && b.isReg && c.isReg
  | .prt, [a] => a.isReg
  | .rdd, [a] => a.isReg
  | .blt, [a, b, c] => a.isReg && b.isReg && c.isAddr
  | _, _ => false

/-- The opcode of an instruction (R79). -/
def Instr.opcode : Instr → Opcode
  | .ldi _ _ => .ldi
  | .add _ _ _ => .add
  | .and _ _ _ => .and
  | .or _ _ _ => .or
  | .xor _ _ _ => .xor
  | .prt _ => .prt
  | .rdd _ => .rdd
  | .blt _ _ _ => .blt

/-- The line that an instruction is written as (R83). -/
def Instr.toLine : Instr → Line
  | .ldi i imm => ⟨.ldi, [.reg i.toNat, .num imm.toNat]⟩
  | .add i j k => ⟨.add, [.reg i.toNat, .reg j.toNat, .reg k.toNat]⟩
  | .and i j k => ⟨.and, [.reg i.toNat, .reg j.toNat, .reg k.toNat]⟩
  | .or i j k => ⟨.or, [.reg i.toNat, .reg j.toNat, .reg k.toNat]⟩
  | .xor i j k => ⟨.xor, [.reg i.toNat, .reg j.toNat, .reg k.toNat]⟩
  | .prt i => ⟨.prt, [.reg i.toNat]⟩
  | .rdd i => ⟨.rdd, [.reg i.toNat]⟩
  | .blt i j addr => ⟨.blt, [.reg i.toNat, .reg j.toNat, .num addr.toNat]⟩

/-- An instruction is well formed when its line is; by the types of its fields every instruction is (R21). -/
def Instr.wellFormed (i : Instr) : Bool := i.toLine.wellFormed

end Sys2Proof
end

