-- ==== Sys2Proof/Decode.lean ====
section
/-! DEFINITION. The field extractors, the opcode map, the decoder of a word and of bytes, and the encoder
(30_encoding.md R70 to R82). Decoding a word is total: no word is rejected (R72, R80). -/

namespace Sys2Proof

/-- `opcode(w) = w[15:13]` (R71, R72). -/
def opcodeField (w : Word) : BitVec 3 := w.extractLsb' 13 3

/-- `ri(w) = w[12:9]` (R72). -/
def riField (w : Word) : RegIdx := w.extractLsb' 9 4

/-- `rj(w) = w[8:5]` (R72). -/
def rjField (w : Word) : RegIdx := w.extractLsb' 5 4

/-- `rk(w) = w[4:1]` (R72). -/
def rkField (w : Word) : RegIdx := w.extractLsb' 1 4

/-- `imm8(w) = w[8:1]` (R72). -/
def imm8Field (w : Word) : Byte := w.extractLsb' 1 8

/-- `addr5(w) = w[4:0]` (R72). -/
def addr5Field (w : Word) : Addr5 := w.extractLsb' 0 5

/-- The opcode map, by bits 15, 14 and 13: all eight values, none reserved (R79, R80). -/
def Opcode.ofBits (b : BitVec 3) : Opcode :=
  match b.getLsbD 2, b.getLsbD 1, b.getLsbD 0 with
  | false, false, false => .ldi
  | false, false, true => .add
  | false, true, false => .and
  | false, true, true => .or
  | true, false, false => .xor
  | true, false, true => .prt
  | true, true, false => .rdd
  | true, true, true => .blt

/-- Bits 15:13 of each opcode (R79). -/
def Opcode.bits : Opcode → BitVec 3
  | .ldi => 0b000
  | .add => 0b001
  | .and => 0b010
  | .or => 0b011
  | .xor => 0b100
  | .prt => 0b101
  | .rdd => 0b110
  | .blt => 0b111

/-- The decoder: the opcode alone selects the instruction, and its format's fields are its operands (R73 to R76, R79);
the unused bits are not looked at (R81). -/
def decodeWord (w : Word) : Instr :=
  match Opcode.ofBits (opcodeField w) with
  | .ldi => .ldi (riField w) (imm8Field w)
  | .add => .add (riField w) (rjField w) (rkField w)
  | .and => .and (riField w) (rjField w) (rkField w)
  | .or => .or (riField w) (rjField w) (rkField w)
  | .xor => .xor (riField w) (rjField w) (rkField w)
  | .prt => .prt (riField w)
  | .rdd => .rdd (riField w)
  | .blt => .blt (riField w) (rjField w) (addr5Field w)

/-- Why bytes give no instruction. Words are never rejected (R80); only a lack of bytes is. -/
inductive DecodeError where
  /-- there is no byte at all -/
  | noBytes
  /-- there is one byte, and a word has two (R70) -/
  | halfWord
  deriving DecidableEq, Repr

/-- The byte at the lower address is the high-order byte (R51, R52). -/
def wordOfBytes (hi lo : Byte) : Word := hi ++ lo

/-- The decoder on bytes: the first instruction and the bytes after it. -/
def decodeBytes : List Byte → Except DecodeError (Instr × List Byte)
  | [] => .error .noBytes
  | [_] => .error .halfWord
  | hi :: lo :: rest => .ok (decodeWord (wordOfBytes hi lo), rest)

/-- `enc_I`: opcode, Ri, immediate, 0 (R82). -/
def encI (op : BitVec 3) (i : RegIdx) (imm : Byte) : Word := op ++ i ++ imm ++ (0 : BitVec 1)

/-- `enc_R`: opcode, Ri, Rj, Rk, 0 (R82). -/
def encR (op : BitVec 3) (i j k : RegIdx) : Word := op ++ i ++ j ++ k ++ (0 : BitVec 1)

/-- `enc_S`: opcode, Ri, nine zeros (R82). -/
def encS (op : BitVec 3) (i : RegIdx) : Word := op ++ i ++ (0 : BitVec 9)

/-- `enc_B`: opcode, Ri, Rj, address (R82). -/
def encB (op : BitVec 3) (i j : RegIdx) (a : Addr5) : Word := op ++ i ++ j ++ a

/-- The encoder, with 0 in every unused bit (R81, R82). -/
def encode : Instr → Word
  | .ldi i imm => encI Opcode.ldi.bits i imm
  | .add i j k => encR Opcode.add.bits i j k
  | .and i j k => encR Opcode.and.bits i j k
  | .or i j k => encR Opcode.or.bits i j k
  | .xor i j k => encR Opcode.xor.bits i j k
  | .prt i => encS Opcode.prt.bits i
  | .rdd i => encS Opcode.rdd.bits i
  | .blt i j a => encB Opcode.blt.bits i j a

/-- The bits of a word that its opcode's format uses; the others are the format's unused bits (R81). -/
def Opcode.usedMask : Opcode → Word
  | .ldi => 0xFFFE
  | .add => 0xFFFE
  | .and => 0xFFFE
  | .or => 0xFFFE
  | .xor => 0xFFFE
  | .prt => 0xFE00
  | .rdd => 0xFE00
  | .blt => 0xFFFF

/-- A word as memory holds it: the high byte first (R52). -/
def bytesOfWord (w : Word) : List Byte := [w.extractLsb' 8 8, w.extractLsb' 0 8]

/-- The two bytes of an instruction, as an image holds them (R52, R82). -/
def encodeBytes (i : Instr) : List Byte := bytesOfWord (encode i)

/-- The word that `nbits` bits numbered as the opcode table numbers them stand for; every bit above them is 0. -/
def tableWord (nbits w : Nat) : Word := BitVec.ofNat 16 (w % 2 ^ nbits)

/-- The instruction the decoder reads from a table word, laid out in bytes as memory holds it. -/
def decodeTableWord (nbits w : Nat) : Option Instr :=
  match decodeBytes (bytesOfWord (tableWord nbits w)) with
  | .ok (i, _) => some i
  | .error _ => none

end Sys2Proof
end

