-- ==== Sys2Proof/Machine/State.lean ====
section
/-! DEFINITION. The state of the machine as plain data, all of it (10_state.md R20 to R39), the reasons a step can stop,
and the state after reset (70_reset_and_hazards.md R220, R221). -/

namespace Sys2Proof.Machine

/-- The engine state (R32, R100). -/
inductive EngineState where
  /-- the engine executes cycles -/
  | running
  /-- the program ran off the end of the loaded image -/
  | haltedNormal
  /-- a handler reported a failure -/
  | haltedError
  deriving DecidableEq, Repr

/-- The error-cause register (R33, R191). -/
inductive ErrCause where
  /-- NONE: no failure has occurred -/
  | none
  /-- MISALIGNED_BRANCH: a BLT named an odd target -/
  | misalignedBranch
  /-- UNKNOWN_OPCODE: an opcode reached a handler that does not serve it; unreachable (R103) -/
  | unknownOpcode
  deriving DecidableEq, Repr

/-- An event at the core's two channels (R39, R108). -/
inductive Event where
  /-- `Out(i, v)`: PRT emitted value `v` of register `i` (R150) -/
  | out (i : RegIdx) (v : Byte)
  /-- `In(n)`: RDD took the integer `n` (R154) -/
  | inp (n : Int)
  deriving DecidableEq, Repr

/-- Memory: the listed bytes, addresses strictly rising, none equal to what an unlisted address reads as. -/
abbrev Memory := List Host.Cell

/-- The state tuple of 10_state.md, the RDD wait, and the two channels as plain data. -/
structure State where
  /-- the general registers R0..R15 (R20) -/
  x : Vector Byte 16
  /-- the 32 bytes of memory (R36) -/
  mem : Memory
  /-- the program counter, a byte address (R24) -/
  pc : PcWord
  /-- the instruction register, the word fetched last (R31) -/
  ir : Word
  /-- the loaded length (R30) -/
  len : PcWord
  /-- the engine state (R32) -/
  state : EngineState
  /-- the error cause (R33) -/
  err : ErrCause
  /-- the register an RDD waits to write, in the middle of its cycle (R153, R202; DESIGN CHOICE of form, log 3) -/
  waiting : Option RegIdx
  /-- IN: the integers the environment supplies, oldest first (R38, R154; DESIGN CHOICE, log 2) -/
  input : List Int
  /-- the IN and OUT events so far, oldest first (R39; DESIGN CHOICE, log 4) -/
  trace : List Event
  deriving DecidableEq, Repr

/-- Why the machine stops without a next state. No instruction's meaning answers one of these: an instruction's own
failure is a NEXT state, HALTED_ERROR (R104), and a state without a step is one of these. -/
inductive Fault where
  /-- raised by `step` in HALTED_NORMAL, which has no transition (R106, R108); safe (log 5) -/
  | haltedNormal
  /-- raised by `step` in HALTED_ERROR, which has no transition (R106, R108), with the cause `err` holds; safe (log 5) -/
  | haltedError (cause : ErrCause)
  /-- raised by `step` while RDD waits to write register `i` and no integer is supplied: the core has no step until one is
  (R108, D12, U5), and it stays RUNNING in the middle of the cycle (R153); safe (log 3) -/
  | waitingForInput (i : RegIdx)
  /-- raised by the fetch at a byte address that does not exist (R50); it cannot be reached (R54); safe (log 9) -/
  | noSuchAddress (address : Nat)
  deriving DecidableEq, Repr

/-- What the model refuses. -/
inductive Refusal where
  /-- reserved for an instruction without a meaning; no arm of `exec` answers it, for every instruction has one; safe -/
  | notModelled (mnemonic : String)
  /-- raised by the image load for an image of more than 32 bytes: no run starts (R64, D4); safe (log 8) -/
  | imageTooLong (bytes : Nat)
  deriving DecidableEq, Repr

/-- The machine after initialization with an empty image (R220, R221 with L = 0; log 1): every field zero, so the engine
starts HALTED_NORMAL (R32, R101). -/
def State.reset : State where
  x := Vector.replicate 16 0
  mem := []
  pc := 0
  ir := 0
  len := 0
  state := .haltedNormal
  err := .none
  waiting := .none
  input := []
  trace := []

end Sys2Proof.Machine
end

