-- ==== Sys2Proof/Machine/Ops.lean ====
section
/-! DEFINITION. The named operations over memory, registers and channels, the failure of a handler as one shared
operation, and the fetch. -/

namespace Sys2Proof.Machine

/-! ### Memory -/

/-- The canonical form: addresses strictly rising, each one of the 32 that exist, no byte equal to what an unlisted
address holds. -/
abbrev Memory.wf (m : Memory) : Prop :=
  m.Pairwise (fun c d => c.1 < d.1) ∧ ∀ c ∈ m, c.1 < Config.memSize ∧ c.2 ≠ Config.unlistedByte

/-- The byte an address holds: the listed one, else the zero memory was created with (R36). -/
def Memory.byteAt : Memory → Nat → Byte
  | [], _ => Config.unlistedByte
  | (c, v) :: m, a => if c = a then v else Memory.byteAt m a

/-- `MemWrite(a, 1, v)` (R9). Its callers stay below 32: the load checks the image's length first (R64). -/
def Memory.write : Memory → Nat → Byte → Memory
  | [], a, b => if b = Config.unlistedByte then [] else [(a, b)]
  | (c, v) :: m, a, b =>
    if a < c then (if b = Config.unlistedByte then (c, v) :: m else (a, b) :: (c, v) :: m)
    else if a = c then (if b = Config.unlistedByte then m else (a, b) :: m)
    else (c, v) :: Memory.write m a b

/-- Bytes written one after another, from address `a` on: the loop of the image load (R64). -/
def Memory.writeAll (m : Memory) (a : Nat) : List Byte → Memory
  | [] => m
  | b :: bs => Memory.writeAll (m.write a b) (a + 1) bs

/-- A read of one byte; an address of 32 or more does not exist (R50). -/
def Memory.read (m : Memory) (a : Nat) : Except Nat Byte :=
  if a < Config.memSize then .ok (m.byteAt a) else .error a

/-- `MemRead(a, 2)`: two bytes, big-endian (R51). Where a byte does not exist the answer is its address. -/
def Memory.readWord (m : Memory) (a : Nat) : Except Nat Word :=
  match m.read a with
  | .error e => .error e
  | .ok hi =>
    match m.read (a + 1) with
    | .error e => .error e
    | .ok lo => .ok (wordOfBytes hi lo)

/-! ### Registers -/

/-- `x[i]`: every register holds a value, R0 like the others (R20, R23). -/
def State.reg (s : State) (i : RegIdx) : Byte := s.x[i.toNat]'i.isLt

/-- `x[i] <- v` (R9, R20). -/
def State.writeReg (s : State) (i : RegIdx) (v : Byte) : State := { s with x := s.x.set i.toNat v i.isLt }

/-! ### Program counter -/

/-- A branch's write of the program counter: no other instruction writes it (R25). -/
def State.jump (s : State) (target : PcWord) : State := { s with pc := target }

/-! ### Failure of a handler: the core's only exception (R104, R190 to R192) -/

/-- `Failure(cause)` as the engine takes it: HALTED_ERROR, the cause recorded, nothing rolled back, so `pc` and `ir`
stay as the fetch left them (R102, R104, R192; log 7). There is no return from it (R190). -/
def State.fail (s : State) (cause : ErrCause) : State := { s with state := .haltedError, err := cause }

/-! ### Channels -/

/-- `Output(i, v)`: one event on OUT (R150). -/
def State.output (s : State) (i : RegIdx) (v : Byte) : State := { s with trace := s.trace ++ [.out i v] }

/-- The low 8 bits of an input integer, `n mod 256`; of a negative one in two's complement (R154, K1). -/
def lowByte (n : Int) : Byte := BitVec.ofInt 8 n

/-- `Input()` and the write of its low byte to register `i` (R153). With no integer supplied the core waits: it stays
in RUNNING in the middle of this cycle and keeps every piece of state (R153, R202); `waiting` says that this handler has
not returned (log 3). -/
def State.awaitInput (s : State) (i : RegIdx) : State :=
  match s.input with
  | [] => { s with waiting := some i }
  | n :: rest => { s.writeReg i (lowByte n) with input := rest, trace := s.trace ++ [.inp n], waiting := none }

/-! ### Fetch -/

/-- The word at `[pc, pc+1]` (R102). -/
def State.fetchWord (s : State) : Except Nat Word := s.mem.readWord s.pc.toNat

/-- `ir` takes the word and `pc` advances by 2, before the handler runs (R102). -/
def State.advance (s : State) (w : Word) : State := { s with ir := w, pc := s.pc + 2 }

end Sys2Proof.Machine
end

