-- ==== Sys2Proof/Machine/Alu.lean ====
section
/-! DEFINITION. ADD, AND, OR and XOR over one shared handler (42_alu.md R130 to R135). -/

namespace Sys2Proof.Machine

/-- What the shared handler computes for an opcode; it serves four of the eight (R130). -/
def aluResult (op : Opcode) (a b : Byte) : Option Byte :=
  match op with
  | .add => some (BitVec.ofNat 8 (a.toNat + b.toNat))
  | .and => some (a &&& b)
  | .or => some (a ||| b)
  | .xor => some (a ^^^ b)
  | .ldi => none
  | .prt => none
  | .rdd => none
  | .blt => none

/-- The shared handler: both sources are read before the destination is written. An opcode it does not serve is the
internal-consistency failure, which no instruction reaches (R130, U2, U3; log 11). -/
def State.alu (s : State) (op : Opcode) (i j k : RegIdx) : State :=
  match aluResult op (s.reg i) (s.reg j) with
  | some r => s.writeReg k r
  | none => s.fail .unknownOpcode

/-- ADD: `x[k] <- (x[i] + x[j]) mod 2^8`, no flag (R131). -/
def execAdd (i j k : RegIdx) (s : State) : Host.Outcome State Fault Refusal := .next (s.alu .add i j k)

/-- AND: `x[k] <- x[i] AND x[j]` (R132). -/
def execAnd (i j k : RegIdx) (s : State) : Host.Outcome State Fault Refusal := .next (s.alu .and i j k)

/-- OR: `x[k] <- x[i] OR x[j]` (R133). -/
def execOr (i j k : RegIdx) (s : State) : Host.Outcome State Fault Refusal := .next (s.alu .or i j k)

/-- XOR: `x[k] <- x[i] XOR x[j]` (R134). -/
def execXor (i j k : RegIdx) (s : State) : Host.Outcome State Fault Refusal := .next (s.alu .xor i j k)

end Sys2Proof.Machine
end

