-- ==== Sys2Proof/Machine/Flags.lean ====
section
/-! DEFINITION. The core has no flags, condition codes or predicates (10_state.md R29). Its two conditions stand here:
BLT's comparison (44_branch.md R171) and the engine's continuation test (40_engine.md R105). -/

namespace Sys2Proof.Machine

/-- `a <u b`: unsigned and strict (R171). -/
def lessUnsigned (a b : Byte) : Bool := decide (a.toNat < b.toNat)

/-- `pc < len` (R105). -/
def State.insideImage (s : State) : Bool := decide (s.pc.toNat < s.len.toNat)

end Sys2Proof.Machine
end

