-- ==== Sys2Proof/Machine/Operands.lean ====
section
/-! DEFINITION. The operand forms: register values, the immediate, and the branch target (30_encoding.md R77, R78). -/

namespace Sys2Proof.Machine

/-- The LDI immediate goes into the register as it is, without extension, scaling or shift (R77). -/
def immediate (imm : Byte) : Byte := imm

/-- The branch target: the field zero-extended to the width of `pc`, absolute, not scaled (R77, R172). -/
def branchTarget (addr : Addr5) : PcWord := addr.zeroExtend 6

/-- `a[0] = 1`: the target is odd (R170). -/
def oddTarget (addr : Addr5) : Bool := addr.getLsbD 0

end Sys2Proof.Machine
end

