-- ==== Sys2Proof/Machine/Branch.lean ====
section
/-! DEFINITION. BLT, the only control transfer (44_branch.md R170 to R174). -/

namespace Sys2Proof.Machine

/-- BLT: an odd target fails whatever the comparison (R170, C4; log 6); else `pc` takes the target if `x[i] <u x[j]`,
and otherwise stays past the branch word. -/
def execBlt (i j : RegIdx) (addr : Addr5) (s : State) : Host.Outcome State Fault Refusal :=
  if oddTarget addr then .next (s.fail .misalignedBranch)
  else if lessUnsigned (s.reg i) (s.reg j) then .next (s.jump (branchTarget addr))
  else .next s

end Sys2Proof.Machine
end

