-- ==== Sys2Proof/Machine/Io.lean ====
section
/-! DEFINITION. PRT and RDD (43_io.md R150 to R154). -/

namespace Sys2Proof.Machine

/-- PRT: emits `Out(i, x[i])`; no register, memory byte or other state changes (R151). -/
def execPrt (i : RegIdx) (s : State) : Host.Outcome State Fault Refusal := .next (s.output i (s.reg i))

/-- RDD: takes one integer and writes its low byte to `x[i]`, or waits for one, in which case the engine makes no step
of its cycle; raises no failure (R108, R153). -/
def execRdd (i : RegIdx) (s : State) : Host.Outcome State Fault Refusal := .next (s.awaitInput i)

end Sys2Proof.Machine
end

