-- ==== Sys2Proof/Machine/Ldi.lean ====
section
/-! DEFINITION. LDI (41_ldi.md R120). A meaning runs after the fetch: `pc` is already past the instruction (R10). -/

namespace Sys2Proof.Machine

/-- LDI: `x[i] <- imm`; always succeeds and changes nothing else (R120). -/
def execLdi (i : RegIdx) (imm : Byte) (s : State) : Host.Outcome State Fault Refusal :=
  .next (s.writeReg i (immediate imm))

end Sys2Proof.Machine
end

