-- ==== Sys2Proof/Machine/Dispatch.lean ====
section
/-! DEFINITION. The opcode table: one handler per instruction (40_engine.md R103). -/

namespace Sys2Proof.Machine

def exec (i : Instr) (s : State) : Host.Outcome State Fault Refusal :=
  match i with
  | .ldi rd imm => Sys2Proof.Machine.execLdi rd imm s
  | .add ri rj rk => Sys2Proof.Machine.execAdd ri rj rk s
  | .and ri rj rk => Sys2Proof.Machine.execAnd ri rj rk s
  | .or ri rj rk => Sys2Proof.Machine.execOr ri rj rk s
  | .xor ri rj rk => Sys2Proof.Machine.execXor ri rj rk s
  | .prt ri => Sys2Proof.Machine.execPrt ri s
  | .rdd rd => Sys2Proof.Machine.execRdd rd s
  | .blt ri rj addr => Sys2Proof.Machine.execBlt ri rj addr s

end Sys2Proof.Machine
end

