-- ==== Sys2Proof/Machine/Engine.lean ====
section
/-! DEFINITION. The engine: the cycle, the continuation test and the resumption of a waiting RDD (40_engine.md R100 to
R108). -/

namespace Sys2Proof.Machine

/-- The continuation test after a handler: a running engine outside the image halts normally (R105). A failed handler
has already left RUNNING (R102). -/
def State.continueRun (s : State) : State :=
  if s.state = .running ∧ s.insideImage = false then { s with state := .haltedNormal } else s

/-- What the engine makes of a handler's answer: the continuation test once the handler has returned. A handler that
waits for input has not returned, and its cycle is no step until it does (R108, D12; log 3). -/
def afterHandler : Host.Outcome State Fault Refusal → Host.Outcome State Fault Refusal
  | .next s =>
    match s.waiting with
    | none => .next s.continueRun
    | some i => .fault (.waitingForInput i)
  | .fault f => .fault f
  | .refused r => .refused r

/-- One engine cycle: fetch, advance, decode, dispatch, continuation test (R102). -/
def cycle (s : State) : Host.Outcome State Fault Refusal :=
  match s.fetchWord with
  | .error a => .fault (.noSuchAddress a)
  | .ok w => afterHandler (exec (decodeWord w) (s.advance w))

/-- What the engine does next. A halted engine has no transition (R106, R108; log 5). A running one looks at the IN
channel for the RDD it waits in, or tests `pc < len`, as it does before every cycle (R101), and runs one (log 9). -/
def engineStep (s : State) : Host.Outcome State Fault Refusal :=
  match s.state with
  | .haltedNormal => .fault .haltedNormal
  | .haltedError => .fault (.haltedError s.err)
  | .running =>
    match s.waiting with
    | some i => afterHandler (execRdd i s)
    | none => if s.insideImage then cycle s else .next s.continueRun

/-- What the machine is while the environment looks at it. A cycle whose handler waits for input is in its middle: `ir`
and `pc` are past the fetch and nothing else has changed (R153, R202). Every other state is seen as it stands, also one whose RDD
has just been supplied its integer (DESIGN CHOICE, log 14). -/
def State.waitState (s : State) : State :=
  if s.state = .running ∧ s.waiting = none ∧ s.insideImage = true then
    match s.fetchWord with
    | .error _ => s
    | .ok w =>
      match exec (decodeWord w) (s.advance w) with
      | .next u => if u.waiting = none then s else u
      | .fault _ => s
      | .refused _ => s
  else s

end Sys2Proof.Machine
end

