-- ==== Sys2Proof/Machine/Channels.lean ====
section
/-! DEFINITION. The environment's side of the four channels: LOAD, IN, OUT and STATUS (10_state.md R38, R39; 20_memory.md
R64; 40_engine.md R108; 60_exceptions.md R203). -/

namespace Sys2Proof.Machine

/-- LOAD and the reset sequence: state zeroed, image written from offset 0, `len` set, then `state` (R64, R220, R221). An
image of more than 32 bytes is refused and no run starts (R64, D4); odd lengths and the empty image are admitted. -/
def loadImage (image : List Byte) : Host.Outcome State Fault Refusal :=
  if image.length ≤ Config.maxImage then
    .next { State.reset with
      mem := Memory.writeAll [] 0 image
      len := BitVec.ofNat 6 image.length
      state := if image.length = 0 then .haltedNormal else .running }
  else .refused (.imageTooLong image.length)

/-- IN: the environment supplies one more integer, at any time (R203; log 2). What STATUS reads between this and the step
that takes the integer is log 14. -/
def State.supply (s : State) (n : Int) : State := { s with input := s.input ++ [n] }

/-- What the environment can read at any time (R38). -/
structure Status where
  state : EngineState
  err : ErrCause
  pc : PcWord
  ir : Word
  x : Vector Byte 16
  deriving DecidableEq, Repr

/-- STATUS: readable at any time, so also in the middle of an RDD that waits, where `pc` is already advanced (R38, R153).
DESIGN CHOICE (log 14): once an integer is supplied and before the step that completes the RDD's cycle, an instant R108 does
not have, it shows the state supplied to as it stands: `pc` and `ir` from before the fetch for a state before the cycle,
the advanced ones for `waitState`. -/
def State.status (s : State) : Status :=
  let u := s.waitState
  ⟨u.state, u.err, u.pc, u.ir, u.x⟩

/-- What a run shows its environment when it halts (R39). -/
structure RunResult where
  trace : List Event
  state : EngineState
  err : ErrCause
  x : Vector Byte 16
  pc : PcWord
  deriving DecidableEq, Repr

/-- The result of a run that has ended; none while it runs (R39, R109). -/
def State.result (s : State) : Option RunResult :=
  match s.state with
  | .running => none
  | .haltedNormal => some ⟨s.trace, s.state, s.err, s.x, s.pc⟩
  | .haltedError => some ⟨s.trace, s.state, s.err, s.x, s.pc⟩

/-- The code of an error cause on STATUS (R191). -/
def ErrCause.code : ErrCause → BitVec 2
  | .none => 0
  | .misalignedBranch => 1
  | .unknownOpcode => 2

/-- The label of an instruction's cycle: `Out(i, v)` for PRT, `In(n)` for RDD with `n` supplied, silent otherwise. Without
`n` an RDD's cycle is no step, and its label is no step's (R108). -/
def cycleLabel (i : Instr) (s : State) : Option Event :=
  match i with
  | .prt r => some (.out r (s.reg r))
  | .rdd _ => s.input.head?.map .inp
  | .ldi _ _ => none
  | .add _ _ _ => none
  | .and _ _ _ => none
  | .or _ _ _ => none
  | .xor _ _ _ => none
  | .blt _ _ _ => none

/-- The label of the step a state makes, if it makes one: its cycle's, or `In(n)` for the RDD it waits in (R108). -/
def State.label (s : State) : Option Event :=
  match s.waiting with
  | some i => cycleLabel (.rdd i) s
  | none =>
    if s.insideImage then
      match s.fetchWord with
      | .error _ => none
      | .ok w => cycleLabel (decodeWord w) s
    else none

end Sys2Proof.Machine
end

