-- ==== Sys2Proof/Machine/Step.lean ====
section
/-! DEFINITION. One step of the machine, and the host's way to put one word where the next step fetches. -/

namespace Sys2Proof.Machine

/-- One step: one whole engine cycle, which for an RDD that already waits is the rest of it. Where the core has no step
the answer is a stop by name (R108; log 3, log 5). -/
def step (s : State) : Host.Outcome State Fault Refusal := engineStep s

/-- Where the next word can be placed: at `pc` if both bytes exist there, else at 0. -/
def State.fetchPlace (s : State) : PcWord := if s.pc.toNat + 1 < Config.memSize then s.pc else 0

/-- `s` with a table word at the place the next step fetches from, the loaded length past it, and the engine RUNNING and
not waiting: what loading an image does for its first word (R64, R220; log 1). -/
def State.withFetchWord (s : State) (nbits w : Nat) : State :=
  { s with
    mem := Memory.writeAll s.mem s.fetchPlace.toNat (bytesOfWord (tableWord nbits w))
    pc := s.fetchPlace
    len := if s.fetchPlace.toNat + 2 ≤ s.len.toNat then s.len else s.fetchPlace + 2
    state := .running
    waiting := none }

end Sys2Proof.Machine
end

