-- ==== Sys2Proof/Machine/Text.lean ====
section
/-! DEFINITION. The text forms: mnemonics (30_encoding.md R83), the assembler's ranges (R84), the listing (R86) and the
console line (43_io.md R152). Text is a list of characters. -/

namespace Sys2Proof.Machine

/-- Unsigned decimal (R83). -/
def decimal (n : Nat) : List Char := Nat.toDigits 10 n

/-- The upper-case mnemonics (R79, R83). -/
def opcodeName : Opcode → List Char
  | .ldi => ['L', 'D', 'I']
  | .add => ['A', 'D', 'D']
  | .and => ['A', 'N', 'D']
  | .or => ['O', 'R']
  | .xor => ['X', 'O', 'R']
  | .prt => ['P', 'R', 'T']
  | .rdd => ['R', 'D', 'D']
  | .blt => ['B', 'L', 'T']

/-- A register is `R` followed by its decimal index (R83). -/
def operandText : Operand → List Char
  | .reg n => 'R' :: decimal n
  | .num n => decimal n

/-- A single space separates tokens (R83). -/
def lineText (l : Line) : List Char := opcodeName l.op ++ l.operands.flatMap (fun o => ' ' :: operandText o)

/-- The mnemonic text of an instruction (R83). -/
def instrText (i : Instr) : List Char := lineText i.toLine

/-- The tokens between single spaces. -/
def tokens : List Char → List (List Char)
  | [] => [[]]
  | c :: cs =>
    match tokens cs with
    | [] => [[c]]
    | t :: ts => if c = ' ' then [] :: t :: ts else (c :: t) :: ts

/-- The value of a string of decimal digits. -/
def digitsValue : Nat → List Char → Nat
  | acc, [] => acc
  | acc, c :: cs => digitsValue (10 * acc + (c.toNat - '0'.toNat)) cs

/-- A number as R83 writes it: exactly the text `decimal` gives some number (log 12). -/
def parseNumber (cs : List Char) : Option Nat :=
  if decimal (digitsValue 0 cs) = cs then some (digitsValue 0 cs) else none

/-- One operand token. -/
def parseOperand : List Char → Option Operand
  | [] => none
  | c :: cs => if c = 'R' then (parseNumber cs).map .reg else (parseNumber (c :: cs)).map .num

/-- Every operand token, or none if one is malformed. -/
def parseOperands : List (List Char) → Option (List Operand)
  | [] => some []
  | t :: ts =>
    match parseOperand t, parseOperands ts with
    | some o, some os => some (o :: os)
    | _, _ => none

/-- A mnemonic, letter for letter (R83). -/
def parseOpcode (cs : List Char) : Option Opcode :=
  [Opcode.ldi, .add, .and, .or, .xor, .prt, .rdd, .blt].find? (fun o => opcodeName o == cs)

/-- A line of text as a mnemonic and operands of any size. -/
def parseLine (text : List Char) : Option Line :=
  match tokens text with
  | [] => none
  | m :: ts =>
    match parseOpcode m, parseOperands ts with
    | some op, some os => some ⟨op, os⟩
    | _, _ => none

/-- The number an operand holds. -/
def operandValue : Operand → Nat
  | .reg n => n
  | .num n => n

/-- The instruction of a line; a line out of form or range does not assemble (R84). -/
def lineInstr (l : Line) : Option Instr :=
  if l.wellFormed then
    match l.op, l.operands.map operandValue with
    | .ldi, [a, b] => some (.ldi (BitVec.ofNat 4 a) (BitVec.ofNat 8 b))
    | .add, [a, b, c] => some (.add (BitVec.ofNat 4 a) (BitVec.ofNat 4 b) (BitVec.ofNat 4 c))
    | .and, [a, b, c] => some (.and (BitVec.ofNat 4 a) (BitVec.ofNat 4 b) (BitVec.ofNat 4 c))
    | .or, [a, b, c] => some (.or (BitVec.ofNat 4 a) (BitVec.ofNat 4 b) (BitVec.ofNat 4 c))
    | .xor, [a, b, c] => some (.xor (BitVec.ofNat 4 a) (BitVec.ofNat 4 b) (BitVec.ofNat 4 c))
    | .prt, [a] => some (.prt (BitVec.ofNat 4 a))
    | .rdd, [a] => some (.rdd (BitVec.ofNat 4 a))
    | .blt, [a, b, c] => some (.blt (BitVec.ofNat 4 a) (BitVec.ofNat 4 b) (BitVec.ofNat 5 c))
    | _, _ => none
  else none

/-- The assembler of one line of text (R84). -/
def assemble (text : List Char) : Option Instr :=
  match parseLine text with
  | none => none
  | some l => lineInstr l

/-- One line of the listing: the decimal offset, a colon and a space, the mnemonic text (R86). -/
def listingLine (m : Memory) (offset : Nat) : List Char :=
  decimal offset ++ [':', ' '] ++ instrText (decodeWord (wordOfBytes (m.byteAt offset) (m.byteAt (offset + 1))))

/-- The listing: one line per whole word of the loaded region, floor(len/2) of them (R86). -/
def listing (s : State) : List (List Char) :=
  (List.range (s.len.toNat / 2)).map (fun n => listingLine s.mem (2 * n))

/-- The lines as one text: separated by newlines, none after the last (R86). -/
def joinLines : List (List Char) → List Char
  | [] => []
  | [l] => l
  | l :: ls => l ++ '\n' :: joinLines ls

/-- The text of the listing (R86). -/
def listingText (s : State) : List Char := joinLines (listing s)

/-- The console line of an OUT event, ended by one newline (R152; log 12). -/
def consoleLine (i : RegIdx) (v : Byte) : List Char :=
  'R' :: decimal i.toNat ++ [' ', '=', ' '] ++ decimal v.toNat ++ ['\n']

/-- The console text of a run: a line for each OUT event, in order (R152). -/
def consoleText : List Event → List Char
  | [] => []
  | .out i v :: es => consoleLine i v ++ consoleText es
  | .inp _ :: es => consoleText es

end Sys2Proof.Machine
end

