-- ==== Sys2Proof/Safety.lean ====
section
/-! DEFINITION. The invariant of the machine, the states a run reaches, and what one instruction may write: the terms
the statements use (40_engine.md R109, R111; 10_state.md R22, R27). -/

namespace Sys2Proof.Machine

/-- What holds in every state between two steps (R111 and the rules named at each field). -/
structure Inv (s : State) : Prop where
  /-- memory is in its canonical form -/
  memWf : Memory.wf s.mem
  /-- `len` lies in 0..32 (R30) -/
  lenLe : s.len.toNat ≤ Config.maxImage
  /-- every byte at or above `len` holds 0 (R56, R57) -/
  tailZero : ∀ a, s.len.toNat ≤ a → s.mem.byteAt a = 0
  /-- `pc` is even (R26) -/
  pcEven : s.pc.toNat % 2 = 0
  /-- `pc` is at most 32 (R27) -/
  pcLe : s.pc.toNat ≤ Config.memSize
  /-- before each fetch `pc < len` (R54, R105) -/
  fetchInside : s.state = .running → s.waiting = none → s.pc.toNat < s.len.toNat
  /-- a normal halt is outside the image (R109) -/
  normalOutside : s.state = .haltedNormal → s.len.toNat ≤ s.pc.toNat
  /-- no failure is recorded unless the engine halted on one (R33, R109) -/
  errNone : s.state ≠ .haltedError → s.err = .none
  /-- the only failure is the odd branch target (R104) -/
  errMisaligned : s.state = .haltedError → s.err = .misalignedBranch
  /-- only a running engine waits (R202), and `ir` holds the RDD it waits in (R31) -/
  waitingRdd : ∀ i, s.waiting = some i → s.state = .running ∧ decodeWord s.ir = .rdd i

/-- The states of the runs of one image: from the load, by steps of the core and by integers the environment supplies
(R203, R220), with the states in the middle of an RDD that waits (R153). -/
inductive ReachableFrom (image : List Byte) : State → Prop where
  | load (s : State) : loadImage image = .next s → ReachableFrom image s
  | move (s t : State) : ReachableFrom image s → step s = .next t → ReachableFrom image t
  | supply (s : State) (n : Int) : ReachableFrom image s → ReachableFrom image (s.supply n)
  | wait (s : State) : ReachableFrom image s → ReachableFrom image s.waitState

/-- The labelled step relation (R108): a cycle the machine can make by itself under its label, and, where it has no step
because RDD waits, the cycle that the environment completes by supplying `n`, for every integer `n`. -/
inductive Transition : State → Option Event → State → Prop where
  | cycle (s t : State) : step s = .next t → Transition s s.label t
  | input (s t : State) (i : RegIdx) (n : Int) :
      step s = .fault (.waitingForInput i) → step (s.supply n) = .next t → Transition s (some (.inp n)) t

/-- The register an instruction writes, if it writes one (R22). -/
def destination : Instr → Option RegIdx
  | .ldi i _ => some i
  | .add _ _ k => some k
  | .and _ _ k => some k
  | .or _ _ k => some k
  | .xor _ _ k => some k
  | .prt _ => none
  | .rdd i => some i
  | .blt _ _ _ => none

end Sys2Proof.Machine
end

