-- ==== Sys2Proof/Certificates/Slice0/Obligations.lean ====
section
/-! DEFINITION. What is stated about the machine, for the provers. A statement's basis, rules and sections stand in
OBLIGATIONS.json; a docstring names the log entry (notes/assumptions) a statement rests on, where it rests on one. -/

open Sys2Proof Sys2Proof.Machine

/-! ### Encoding -/

/-- Decoding an encoded instruction gives it back, as a word and as bytes with more bytes after it. -/
def Obligations.EncodeThenDecode : Prop :=
  ∀ (i : Instr) (rest : List Byte),
    decodeWord (encode i) = i ∧ decodeBytes (encodeBytes i ++ rest) = .ok (i, rest)

/-- Encoding a decoded word gives the word with its unused bits cleared. -/
def Obligations.DecodeThenEncodeClearsUnusedBits : Prop :=
  ∀ w : Word, encode (decodeWord w) = w &&& (decodeWord w).opcode.usedMask

/-- Every word is the instruction its bits 15:13 select, with the fields of its format (R71, R73 to R76, R79). -/
def Obligations.WordDecodesByItsFields : Prop :=
  ∀ w : Word,
    let n := w.toNat
    let i : RegIdx := BitVec.ofNat 4 (n / 512)
    let j : RegIdx := BitVec.ofNat 4 (n / 32)
    let k : RegIdx := BitVec.ofNat 4 (n / 2)
    (n / 8192 = 0 → decodeWord w = .ldi i (BitVec.ofNat 8 (n / 2))) ∧
    (n / 8192 = 1 → decodeWord w = .add i j k) ∧
    (n / 8192 = 2 → decodeWord w = .and i j k) ∧
    (n / 8192 = 3 → decodeWord w = .or i j k) ∧
    (n / 8192 = 4 → decodeWord w = .xor i j k) ∧
    (n / 8192 = 5 → decodeWord w = .prt i) ∧
    (n / 8192 = 6 → decodeWord w = .rdd i) ∧
    (n / 8192 = 7 → decodeWord w = .blt i j (BitVec.ofNat 5 n)) ∧
    n / 8192 < 8

/-- Words of the spec's decode table are the instructions it names. -/
def Obligations.TabledWordsDecode : Prop :=
  decodeWord 0x0214 = .ldi 1 10 ∧ decodeWord 0x1FFF = .ldi 15 255 ∧
  decodeWord 0x2246 = .add 1 2 3 ∧ decodeWord 0x48AC = .and 4 5 6 ∧
  decodeWord 0x68AC = .or 4 5 6 ∧ decodeWord 0x88AC = .xor 4 5 6 ∧
  decodeWord 0xA1FF = .prt 0 ∧ decodeWord 0xC600 = .rdd 3 ∧
  decodeWord 0xE03E = .blt 0 1 30 ∧ decodeWord 0xFFFF = .blt 15 15 31

/-- Two words are the same instruction exactly when they have one opcode and agree in the bits its format uses. -/
def Obligations.OnlyUsedBitsSelectTheInstruction : Prop :=
  ∀ w v : Word, decodeWord w = decodeWord v ↔
    opcodeField w = opcodeField v ∧
      w &&& (Opcode.ofBits (opcodeField w)).usedMask = v &&& (Opcode.ofBits (opcodeField w)).usedMask

/-- Each LDI and each ALU instruction has 2 words, each PRT and each RDD has 512, each BLT has 1. -/
def Obligations.EncodingsOfAnInstruction : Prop :=
  ∀ i : Instr, ∃ ws : List Word, ws.Nodup ∧ (∀ w, w ∈ ws ↔ decodeWord w = i) ∧
    ws.length =
      match i.opcode with
      | .ldi => 2
      | .add => 2
      | .and => 2
      | .or => 2
      | .xor => 2
      | .prt => 512
      | .rdd => 512
      | .blt => 1

/-! ### Text -/

/-- The assembler reads back the mnemonic text of every instruction. It rests on log 12: the form of a number. -/
def Obligations.AssembleWhatIsWritten : Prop :=
  ∀ i : Instr, assemble (instrText i) = some i

/-- A line assembles to an instruction exactly when it is that instruction's line: no operand out of its range does. -/
def Obligations.OnlyLinesInRangeAssemble : Prop :=
  ∀ (l : Line) (i : Instr), lineInstr l = some i ↔ l = i.toLine

/-- A mnemonic text is at most 15 characters, and a listing line below offset 32 at most 19. -/
def Obligations.TextLengthsBounded : Prop :=
  (∀ i : Instr, (instrText i).length ≤ 15) ∧
  (∀ (m : Memory) (offset : Nat), offset < 32 → (listingLine m offset).length ≤ 19)

/-- The listing of a loaded image has one line per whole word, and each line shows the instruction at its offset. -/
def Obligations.ListingShowsEachWholeWord : Prop :=
  ∀ (image : List Byte) (s : State), loadImage image = .next s →
    (listing s).length = image.length / 2 ∧
    ∀ n hi lo, image[2 * n]? = some hi → image[2 * n + 1]? = some lo →
      (listing s)[n]? = some (decimal (2 * n) ++ [':', ' '] ++ instrText (decodeWord (wordOfBytes hi lo)))

/-! ### Reset and load -/

/-- After the load of any image, and at reset, every register is 0 and `pc` is 0 (R23, R28). -/
def Obligations.RegistersAndPcStartAtZero : Prop :=
  (∀ (image : List Byte) (s : State), loadImage image = .next s → (∀ r, s.reg r = 0) ∧ s.pc = 0) ∧
  (∀ r, State.reset.reg r = 0) ∧ State.reset.pc = 0

/-- The load puts an image of at most 32 bytes at offset 0 with zeros above it and sets every other field as the reset
table says; a longer one is refused (log 8). The fields waiting, input and trace are log 3, log 2 and log 4. -/
def Obligations.LoadPlacesTheImage : Prop :=
  (∀ image : List Byte, image.length ≤ 32 → ∃ s, loadImage image = .next s ∧
    (∀ k, k < 32 → s.mem.read k = .ok (image.getD k 0)) ∧
    s.len.toNat = image.length ∧ s.ir = 0 ∧ s.err = .none ∧
    s.state = (if 0 < image.length then .running else .haltedNormal) ∧
    s.waiting = none ∧ s.input = [] ∧ s.trace = []) ∧
  (∀ image : List Byte, 32 < image.length → loadImage image = .refused (.imageTooLong image.length))

/-- The last word of an image of odd length is its last byte over a low byte of 0. That such an image is loaded is log 8. -/
def Obligations.OddImageEndsInZeroByte : Prop :=
  ∀ (image : List Byte) (s : State) (last : Byte), loadImage image = .next s → image.length % 2 = 1 →
    image.getLast? = some last →
    ∃ w, s.mem.readWord (image.length - 1) = .ok w ∧ w.toNat = 256 * last.toNat

/-- Memories in canonical form that hold the same bytes are equal: the form is the model's own. -/
def Obligations.CanonicalMemoriesAreEqualByBytes : Prop :=
  ∀ m n : Memory, m.wf → n.wf → (∀ a, a < 32 → m.read a = n.read a) → m = n

/-! ### Invariants of every step -/

/-- The reset state meets the invariant. That it holds no image is log 1. -/
def Obligations.ResetMeetsInv : Prop := Inv State.reset

/-- The state after the load of any image meets the invariant. -/
def Obligations.LoadMeetsInv : Prop :=
  ∀ (image : List Byte) (s : State), loadImage image = .next s → Inv s

/-- Every step from a state that meets the invariant gives one that meets it. Its field on waiting rests on log 3. -/
def Obligations.StepKeepsInv : Prop :=
  ∀ s t : State, Inv s → step s = .next t → Inv t

/-- The state in the middle of an RDD that waits meets the invariant where the state before its cycle does, and so does a
state to which an integer is supplied. They rest on log 3 and log 2. -/
def Obligations.WaitAndSupplyKeepInv : Prop :=
  ∀ (s : State) (n : Int), Inv s → Inv s.waitState ∧ Inv (s.supply n)

/-- In every state a run reaches: `pc` is even and at most 32, a fetch is inside memory, memory is the image followed by
zeros, the loaded length is the image's, and a normal halt has no error and is past the image. The waits and the supply
of integers in these runs are log 3 and log 2. -/
def Obligations.ReachableStatesAreSound : Prop :=
  ∀ (image : List Byte) (s : State), ReachableFrom image s →
    s.pc.toNat % 2 = 0 ∧ s.pc.toNat ≤ 32 ∧
    (s.state = .running → s.waiting = none → s.pc.toNat + 1 ≤ 31) ∧
    (∀ k, k < 32 → s.mem.read k = .ok (image.getD k 0)) ∧
    s.len.toNat = image.length ∧
    (s.state = .haltedNormal → s.err = .none ∧ s.len.toNat ≤ s.pc.toNat) ∧
    s.err ≠ .unknownOpcode

/-- A running machine that meets the invariant has a next state, unless it is at an RDD and no integer is supplied; then
it has one whatever integer is supplied. No word and no data stops it. The input list is log 2, the stop of a wait
log 3. -/
def Obligations.RunningMachineNeverStops : Prop :=
  ∀ s : State, Inv s → s.state = .running →
    (s.input ≠ [] → ∃ t, step s = .next t) ∧
    (s.input = [] →
      (∃ t, step s = .next t) ∨
      ∃ i, step s = .fault (.waitingForInput i) ∧
        (s.waiting = some i ∨ ∃ w, s.fetchWord = .ok w ∧ decodeWord w = .rdd i) ∧
        ∀ n, ∃ t, step (s.supply n) = .next t)

/-- A halted machine has no next state; the stops are named by log 5. -/
def Obligations.HaltedMachineHasNoStep : Prop :=
  ∀ s : State,
    (s.state = .haltedNormal → step s = .fault .haltedNormal) ∧
    (s.state = .haltedError → step s = .fault (.haltedError s.err))

/-! ### The engine cycle -/

/-- A running engine inside the image runs the instruction its word decodes to, on the state with `ir` the word and `pc`
advanced by 2, and then tests `pc < len`; where the instruction waits for input there is no step. The clauses on waiting
rest on log 3. -/
def Obligations.StepRunsTheDecodedInstruction : Prop :=
  ∀ (s u : State) (w : Word), s.state = .running → s.waiting = none → s.pc.toNat < s.len.toNat →
    s.fetchWord = .ok w → exec (decodeWord w) { s with ir := w, pc := s.pc + 2 } = .next u →
    (u.waiting = none → step s = .next
      (if u.state = .running ∧ ¬ u.pc.toNat < u.len.toNat then { u with state := .haltedNormal } else u)) ∧
    (∀ i, u.waiting = some i → step s = .fault (.waitingForInput i))

/-- After a handler succeeds the engine stays RUNNING while `pc < len`, and otherwise is HALTED_NORMAL (R105). -/
def Obligations.ContinuationTestAfterHandler : Prop :=
  ∀ (s u : State) (w : Word), s.state = .running → s.waiting = none → s.pc.toNat < s.len.toNat →
    s.fetchWord = .ok w → exec (decodeWord w) (s.advance w) = .next u → u.waiting = none → u.state = .running →
    ∃ t, step s = .next t ∧ t = { u with state := t.state } ∧
      (t.pc.toNat < t.len.toNat → t.state = .running) ∧
      (t.len.toNat ≤ t.pc.toNat → t.state = .haltedNormal)

/-- After a cycle `ir` holds the two bytes at the old `pc`, the lower address the high-order byte. -/
def Obligations.FetchIsBigEndian : Prop :=
  ∀ s t : State, s.waiting = none → s.pc.toNat < s.len.toNat → s.pc.toNat + 1 < 32 → step s = .next t →
    t.ir.toNat = 256 * (s.mem.byteAt s.pc.toNat).toNat + (s.mem.byteAt (s.pc.toNat + 1)).toNat

/-- `pc` is written by the fetch, plus 2, and by a taken BLT, the zero-extended field, and by nothing else; and no
instruction reads it (R25). -/
def Obligations.PcWrittenByFetchAndTakenBranch : Prop :=
  (∀ (s t : State) (w : Word), s.state = .running → s.waiting = none → s.pc.toNat < s.len.toNat →
    s.fetchWord = .ok w → step s = .next t →
    (∀ i j a, decodeWord w = .blt i j a → a.toNat % 2 = 0 → (s.reg i).toNat < (s.reg j).toNat →
      t.pc.toNat = a.toNat) ∧
    ((∀ i j a, decodeWord w = .blt i j a → a.toNat % 2 = 0 → ¬ (s.reg i).toNat < (s.reg j).toNat) →
      t.pc = s.pc + 2)) ∧
  (∀ s t : State, s.waiting ≠ none ∨ s.len.toNat ≤ s.pc.toNat → step s = .next t → t.pc = s.pc) ∧
  (∀ (i : Instr) (s : State) (p : PcWord), ∃ t u, exec i s = .next t ∧ exec i { s with pc := p } = .next u ∧
    u = { t with pc := u.pc } ∧ (t.pc = s.pc → u.pc = p ∨ t.pc = u.pc) ∧ (t.pc ≠ s.pc → u.pc = t.pc))

/-! ### The instructions -/

/-- LDI writes its immediate to `Ri` and changes nothing else; its words and its text (R120). -/
def Obligations.LdiWritesItsImmediate : Prop :=
  ∀ (i : RegIdx) (imm : Byte) (s : State),
    (∃ t, exec (.ldi i imm) s = .next t ∧ t.reg i = imm ∧ (∀ r, r ≠ i → t.reg r = s.reg r) ∧ t = { s with x := t.x }) ∧
    (∀ u : BitVec 1, decodeWord ((0b000 : BitVec 3) ++ i ++ imm ++ u) = .ldi i imm) ∧
    instrText (.ldi i imm) = ['L', 'D', 'I', ' ', 'R'] ++ decimal i.toNat ++ [' '] ++ decimal imm.toNat

/-- ADD writes the sum modulo 256 of the two old values to `Rk` and changes nothing else; its words and its text (R131). -/
def Obligations.AddWritesTheSumModulo256 : Prop :=
  ∀ (i j k : RegIdx) (s : State),
    (∃ t, exec (.add i j k) s = .next t ∧ (t.reg k).toNat = ((s.reg i).toNat + (s.reg j).toNat) % 256 ∧
      (∀ r, r ≠ k → t.reg r = s.reg r) ∧ t = { s with x := t.x }) ∧
    (∀ u : BitVec 1, decodeWord ((0b001 : BitVec 3) ++ i ++ j ++ k ++ u) = .add i j k) ∧
    instrText (.add i j k) =
      ['A', 'D', 'D', ' ', 'R'] ++ decimal i.toNat ++ [' ', 'R'] ++ decimal j.toNat ++ [' ', 'R'] ++ decimal k.toNat

/-- AND writes the bitwise and of the two old values to `Rk` and changes nothing else; its words and its text (R132). -/
def Obligations.AndWritesBitwiseAnd : Prop :=
  ∀ (i j k : RegIdx) (s : State),
    (∃ t, exec (.and i j k) s = .next t ∧
      (∀ b, (t.reg k).getLsbD b = ((s.reg i).getLsbD b && (s.reg j).getLsbD b)) ∧
      (∀ r, r ≠ k → t.reg r = s.reg r) ∧ t = { s with x := t.x }) ∧
    (∀ u : BitVec 1, decodeWord ((0b010 : BitVec 3) ++ i ++ j ++ k ++ u) = .and i j k) ∧
    instrText (.and i j k) =
      ['A', 'N', 'D', ' ', 'R'] ++ decimal i.toNat ++ [' ', 'R'] ++ decimal j.toNat ++ [' ', 'R'] ++ decimal k.toNat

/-- OR writes the bitwise inclusive or of the two old values to `Rk` and changes nothing else; its words and its text
(R133). -/
def Obligations.OrWritesBitwiseOr : Prop :=
  ∀ (i j k : RegIdx) (s : State),
    (∃ t, exec (.or i j k) s = .next t ∧
      (∀ b, (t.reg k).getLsbD b = ((s.reg i).getLsbD b || (s.reg j).getLsbD b)) ∧
      (∀ r, r ≠ k → t.reg r = s.reg r) ∧ t = { s with x := t.x }) ∧
    (∀ u : BitVec 1, decodeWord ((0b011 : BitVec 3) ++ i ++ j ++ k ++ u) = .or i j k) ∧
    instrText (.or i j k) =
      ['O', 'R', ' ', 'R'] ++ decimal i.toNat ++ [' ', 'R'] ++ decimal j.toNat ++ [' ', 'R'] ++ decimal k.toNat

/-- XOR writes the bitwise exclusive or of the two old values to `Rk` and changes nothing else; its words and its text
(R134). -/
def Obligations.XorWritesBitwiseXor : Prop :=
  ∀ (i j k : RegIdx) (s : State),
    (∃ t, exec (.xor i j k) s = .next t ∧
      (∀ b, (t.reg k).getLsbD b = ((s.reg i).getLsbD b ^^ (s.reg j).getLsbD b)) ∧
      (∀ r, r ≠ k → t.reg r = s.reg r) ∧ t = { s with x := t.x }) ∧
    (∀ u : BitVec 1, decodeWord ((0b100 : BitVec 3) ++ i ++ j ++ k ++ u) = .xor i j k) ∧
    instrText (.xor i j k) =
      ['X', 'O', 'R', ' ', 'R'] ++ decimal i.toNat ++ [' ', 'R'] ++ decimal j.toNat ++ [' ', 'R'] ++ decimal k.toNat

/-- PRT emits the event `Out(i, x[i])` and changes nothing else; its words and its text (R151). The field that records
the event is log 4. -/
def Obligations.PrtEmitsItsRegister : Prop :=
  ∀ (i : RegIdx) (s : State),
    (∃ t, exec (.prt i) s = .next t ∧ t.trace = s.trace ++ [.out i (s.reg i)] ∧ (∀ r, t.reg r = s.reg r) ∧
      t = { s with trace := t.trace }) ∧
    (∀ u : BitVec 9, decodeWord ((0b101 : BitVec 3) ++ i ++ u) = .prt i) ∧
    instrText (.prt i) = ['P', 'R', 'T', ' ', 'R'] ++ decimal i.toNat

/-- RDD with an integer supplied writes it modulo 256 to `Ri`, takes it from the channel, records the event and changes
nothing else; its words and its text. The input list, the wait and the trace are log 2, log 3 and log 4. -/
def Obligations.RddTakesOneInteger : Prop :=
  ∀ (i : RegIdx) (s : State),
    (∀ (n : Int) (rest : List Int), s.input = n :: rest →
      ∃ t, exec (.rdd i) s = .next t ∧ ((t.reg i).toNat : Int) = n % 256 ∧ (∀ r, r ≠ i → t.reg r = s.reg r) ∧
        t.input = rest ∧ t.trace = s.trace ++ [.inp n] ∧ t.waiting = none ∧
        t = { s with x := t.x, input := t.input, trace := t.trace, waiting := t.waiting }) ∧
    (∀ u : BitVec 9, decodeWord ((0b110 : BitVec 3) ++ i ++ u) = .rdd i) ∧
    instrText (.rdd i) = ['R', 'D', 'D', ' ', 'R'] ++ decimal i.toNat

/-- RDD with no integer supplied has no step. While it waits STATUS shows the engine RUNNING with `pc` advanced, `ir` the
RDD word and every register as before. The stop's name and the field that records the wait are log 3. -/
def Obligations.RddWithoutInputWaits : Prop :=
  ∀ (i : RegIdx) (s : State) (w : Word), s.state = .running → s.waiting = none → s.pc.toNat < s.len.toNat →
    s.fetchWord = .ok w → decodeWord w = .rdd i → s.input = [] →
    step s = .fault (.waitingForInput i) ∧
    s.waitState = { s with ir := w, pc := s.pc + 2, waiting := some i } ∧
    s.status = ⟨.running, s.err, s.pc + 2, w, s.x⟩

/-- A machine has no step for want of input exactly when it is RUNNING, nothing is supplied, and it waits in an RDD or is
at one; then no number of steps gets it further, for there is no timeout. It rests on log 2 and log 3. -/
def Obligations.WaitWithoutInputHangs : Prop :=
  ∀ (s : State) (i : RegIdx),
    (step s = .fault (.waitingForInput i) ↔
      s.state = .running ∧ s.input = [] ∧
        (s.waiting = some i ∨
          s.waiting = none ∧ s.pc.toNat < s.len.toNat ∧ ∃ w, s.fetchWord = .ok w ∧ decodeWord w = .rdd i)) ∧
    (step s = .fault (.waitingForInput i) → ∀ k, Host.Core.run core (k + 1) s = .fault (.waitingForInput i))

/-- An integer supplied to a waiting machine ends the wait: RDD completes as if it had been supplied before, and then
the engine tests `pc < len`. It rests on log 2 and log 3. -/
def Obligations.SuppliedIntegerEndsTheWait : Prop :=
  ∀ (s : State) (i : RegIdx) (n : Int), s.state = .running → s.waiting = some i → s.input = [] →
    ∃ t, step (s.supply n) = .next t ∧ ((t.reg i).toNat : Int) = n % 256 ∧ (∀ r, r ≠ i → t.reg r = s.reg r) ∧
      t.trace = s.trace ++ [.inp n] ∧ t.input = [] ∧ t.waiting = none ∧ t.pc = s.pc ∧ t.ir = s.ir ∧
      t.mem = s.mem ∧ t.len = s.len ∧ t.err = s.err ∧
      t.state = (if s.pc.toNat < s.len.toNat then .running else .haltedNormal)

/-- Whether an integer is supplied before an RDD or while it waits makes no difference after it. It rests on log 2 and
log 3. -/
def Obligations.TimeOfSupplyIsNotObservable : Prop :=
  ∀ (s : State) (i : RegIdx) (n : Int), s.waiting = none → step s = .fault (.waitingForInput i) →
    s.waitState.waiting = some i ∧ step (s.waitState.supply n) = step (s.supply n)

/-- BLT at the fetch address: `pc` becomes an even target exactly if `Ri < Rj`, else the old `pc` plus 2; an odd target
halts with an addressing failure either way; no register changes (R173). -/
def Obligations.BranchPostconditions : Prop :=
  ∀ (s : State) (w : Word) (i j : RegIdx) (a : Addr5), s.state = .running → s.waiting = none →
    s.pc.toNat < s.len.toNat → s.fetchWord = .ok w → decodeWord w = .blt i j a →
    ∃ t, step s = .next t ∧ (∀ r, t.reg r = s.reg r) ∧
      (a.toNat % 2 = 0 → (s.reg i).toNat < (s.reg j).toNat → t.pc.toNat = a.toNat ∧ t.state ≠ .haltedError) ∧
      (a.toNat % 2 = 0 → ¬ (s.reg i).toNat < (s.reg j).toNat → t.pc = s.pc + 2 ∧ t.state ≠ .haltedError) ∧
      (a.toNat % 2 = 1 → t.state = .haltedError ∧ t.err = .misalignedBranch)

/-- BLT itself: the comparison is unsigned and strict, the target absolute, and an odd target is never written to `pc`
(R171, R172). -/
def Obligations.BranchComparesUnsigned : Prop :=
  ∀ (i j : RegIdx) (a : Addr5) (s : State),
    (a.toNat % 2 = 0 → (s.reg i).toNat < (s.reg j).toNat →
      ∃ t, exec (.blt i j a) s = .next t ∧ t.pc.toNat = a.toNat ∧ t = { s with pc := t.pc }) ∧
    (a.toNat % 2 = 0 → (s.reg j).toNat ≤ (s.reg i).toNat → exec (.blt i j a) s = .next s) ∧
    (a.toNat % 2 = 1 → ∃ t, exec (.blt i j a) s = .next t ∧ t.state = .haltedError ∧ t.pc = s.pc)

/-- What a failure leaves: HALTED_ERROR, the cause, the faulting word in `ir`, its address plus 2 in `pc`, and everything
else as it was. It rests on log 6 and log 7. -/
def Obligations.FailureRecordsAndRollsNothingBack : Prop :=
  ∀ (s : State) (w : Word) (i j : RegIdx) (a : Addr5), s.state = .running → s.waiting = none →
    s.pc.toNat < s.len.toNat → s.fetchWord = .ok w → decodeWord w = .blt i j a → a.toNat % 2 = 1 →
    step s = .next { s with ir := w, pc := s.pc + 2, state := .haltedError, err := .misalignedBranch }

/-- A step enters HALTED_ERROR exactly when it runs a BLT with an odd target. It rests on log 6. -/
def Obligations.OnlyAnOddBranchFails : Prop :=
  ∀ s t : State, step s = .next t →
    (t.state = .haltedError ↔
      s.waiting = none ∧ s.pc.toNat < s.len.toNat ∧
        ∃ w i j a, s.fetchWord = .ok w ∧ decodeWord w = .blt i j a ∧ a.toNat % 2 = 1)

/-- `err` changes only on the step that enters HALTED_ERROR, and to MISALIGNED_BRANCH. -/
def Obligations.ErrWrittenOnlyOnFailure : Prop :=
  ∀ s t : State, step s = .next t → t.err ≠ s.err →
    s.state = .running ∧ t.state = .haltedError ∧ t.err = .misalignedBranch

/-- The shared handler fails on the four opcodes it does not serve, and no instruction reaches that failure (log 11). -/
def Obligations.UnknownOpcodeIsUnreachable : Prop :=
  (∀ (s : State) (op : Opcode) (i j k : RegIdx), op = .ldi ∨ op = .prt ∨ op = .rdd ∨ op = .blt →
    s.alu op i j k = { s with state := .haltedError, err := .unknownOpcode }) ∧
  (∀ (i : Instr) (s t : State), exec i s = .next t → t.err = .unknownOpcode → s.err = .unknownOpcode)

/-- What each instruction leaves unchanged: every register but its destination, every byte of memory, `len` and `ir`
always; `pc` but for a BLT; `state` and `err` but for a BLT; the trace and the input but for PRT and RDD. -/
def Obligations.InstructionFrame : Prop :=
  ∀ (i : Instr) (s t : State), exec i s = .next t →
    (∀ r, destination i ≠ some r → t.reg r = s.reg r) ∧
    (∀ a, t.mem.read a = s.mem.read a) ∧ t.len = s.len ∧ t.ir = s.ir ∧
    (i.opcode ≠ .blt → t.pc = s.pc ∧ t.state = s.state ∧ t.err = s.err) ∧
    (i.opcode ≠ .rdd → t.input = s.input ∧ t.waiting = s.waiting) ∧
    (i.opcode ≠ .prt → i.opcode ≠ .rdd → t.trace = s.trace)

/-- The idioms: BLT of one register with an even target does nothing, OR of a register with itself copies it, XOR with
itself clears it. -/
def Obligations.IdiomsDoWhatTheySay : Prop :=
  ∀ (a b : RegIdx) (p : Addr5) (s : State),
    (p.toNat % 2 = 0 → exec (.blt a a p) s = .next s) ∧
    (∃ t, exec (.or a a b) s = .next t ∧ t.reg b = s.reg a ∧ (∀ r, r ≠ b → t.reg r = s.reg r)) ∧
    (∃ t, exec (.xor a a a) s = .next t ∧ t.reg a = 0 ∧ (∀ r, r ≠ a → t.reg r = s.reg r))

/-! ### The whole machine -/

/-- No step changes a byte of memory or the loaded length. -/
def Obligations.MemoryIsConstant : Prop :=
  ∀ s t : State, step s = .next t → t.mem = s.mem ∧ (∀ a, t.mem.read a = s.mem.read a) ∧ t.len = s.len

/-- No instruction's effect depends on `ir`, on `len` or on memory: they pass through it. -/
def Obligations.InstructionsDoNotSeeIrLenOrMemory : Prop :=
  ∀ (i : Instr) (s : State) (w : Word) (l : PcWord) (m : Memory),
    ∃ t, exec i s = .next t ∧
      exec i { s with ir := w, len := l, mem := m } = .next { t with ir := w, len := l, mem := m }

/-- Only RDD sees the IN channel: for every other instruction the supplied integers pass through. The input list is
log 2. -/
def Obligations.OnlyRddSeesTheInput : Prop :=
  ∀ (i : Instr) (s : State) (q : List Int), i.opcode ≠ .rdd →
    ∃ t, exec i s = .next t ∧ exec i { s with input := q } = .next { t with input := q }

/-- Every step extends the trace by its label: a cycle by `Out(i, v)` for PRT, `In(n)` for RDD with `n` supplied, nothing
otherwise; and the step that completes an RDD that waited by `In(n)`. The input list and the trace are log 2 and log 4,
the state in which RDD waits log 3. -/
def Obligations.CycleEmitsItsLabel : Prop :=
  (∀ s t : State, step s = .next t → t.trace = s.trace ++ s.label.toList) ∧
  (∀ (s : State) (w : Word), s.waiting = none → s.pc.toNat < s.len.toNat → s.fetchWord = .ok w →
    s.label = match decodeWord w with
      | .prt i => some (.out i (s.reg i))
      | .rdd _ => s.input.head?.map .inp
      | .ldi _ _ => none
      | .add _ _ _ => none
      | .and _ _ _ => none
      | .or _ _ _ => none
      | .xor _ _ _ => none
      | .blt _ _ _ => none) ∧
  (∀ (s t : State) (i : RegIdx), s.waiting = some i → step s = .next t →
    ∃ n rest, s.input = n :: rest ∧ s.label = some (.inp n))

/-- The labelled step relation: a cycle of PRT has the one transition `Out(i, v)`, a cycle of RDD with nothing supplied
has a transition `In(n)` for every integer `n` and no other, one that waits has the same, every other cycle has one silent
transition, and a halted state has none. The relation's use of the input list is log 2 and log 3. -/
def Obligations.TransitionsAreLabelledCycles : Prop :=
  (∀ (s : State) (l : Option Event) (t : State), s.state ≠ .running → ¬ Transition s l t) ∧
  (∀ (s : State) (w : Word), Inv s → s.state = .running → s.waiting = none → s.fetchWord = .ok w →
    (∀ i, decodeWord w = .prt i → (∃ t, Transition s (some (.out i (s.reg i))) t) ∧
      ∀ l t, Transition s l t → l = some (.out i (s.reg i)) ∧ step s = .next t) ∧
    (∀ i, decodeWord w = .rdd i → s.input = [] → (∀ t, step s ≠ .next t) ∧ (∀ n, ∃ t, Transition s (some (.inp n)) t) ∧
      ∀ l t, Transition s l t → ∃ n, l = some (.inp n) ∧ step (s.supply n) = .next t) ∧
    ((decodeWord w).opcode ≠ .prt → (decodeWord w).opcode ≠ .rdd → (∃ t, Transition s none t) ∧
      ∀ l t, Transition s l t → l = none ∧ step s = .next t)) ∧
  (∀ (s : State) (i : RegIdx), s.state = .running → s.waiting = some i → s.input = [] →
    (∀ t, step s ≠ .next t) ∧ (∀ n, ∃ t, Transition s (some (.inp n)) t) ∧
      ∀ l t, Transition s l t → ∃ n, l = some (.inp n) ∧ step (s.supply n) = .next t)

/-- Along every step the integers taken so far followed by those still supplied stay one sequence: inputs are consumed in
order, each once, and none is lost. It rests on log 2 and log 4. -/
def Obligations.InputsConsumedInOrder : Prop :=
  ∀ s t : State, step s = .next t →
    let taken : List Event → List Int := fun es => es.filterMap (fun e => match e with
      | .inp n => some n
      | .out _ _ => none)
    taken t.trace ++ t.input = taken s.trace ++ s.input

/-- A taken BLT to its own address runs for ever: after any number of steps only `ir` has taken the branch word. -/
def Obligations.SelfBranchNeverEnds : Prop :=
  ∀ (s : State) (w : Word) (i j : RegIdx) (a : Addr5) (k : Nat), s.state = .running → s.waiting = none →
    s.pc.toNat < s.len.toNat → s.fetchWord = .ok w → decodeWord w = .blt i j a → a.toNat = s.pc.toNat →
    a.toNat % 2 = 0 → (s.reg i).toNat < (s.reg j).toNat →
    Host.Core.run core (k + 1) s = .next { s with ir := w }
end

