-- ==== Sys2Proof/Laws/Encoding.lean ====
section
/-! SUPPORT. Fields and formats as numbers: each field of a word is a quotient and remainder of it, and each format is a
weighted sum of its fields. -/

namespace Sys2Proof

/-- A word made by appending is the high part shifted past the low one, plus the low one. -/
theorem toNat_append_eq {n m : Nat} (x : BitVec n) (y : BitVec m) : (x ++ y).toNat = x.toNat * 2 ^ m + y.toNat := by
  rw [BitVec.toNat_append, ← Nat.shiftLeft_add_eq_or_of_lt y.isLt, Nat.shiftLeft_eq]

theorem opcodeField_toNat (w : Word) : (opcodeField w).toNat = w.toNat / 8192 := by
  have := w.isLt
  simp only [opcodeField, BitVec.extractLsb'_toNat, Nat.shiftRight_eq_div_pow]; omega

theorem riField_toNat (w : Word) : (riField w).toNat = w.toNat / 512 % 16 := by
  simp only [riField, BitVec.extractLsb'_toNat, Nat.shiftRight_eq_div_pow, Nat.reducePow]

theorem rjField_toNat (w : Word) : (rjField w).toNat = w.toNat / 32 % 16 := by
  simp only [rjField, BitVec.extractLsb'_toNat, Nat.shiftRight_eq_div_pow, Nat.reducePow]

theorem rkField_toNat (w : Word) : (rkField w).toNat = w.toNat / 2 % 16 := by
  simp only [rkField, BitVec.extractLsb'_toNat, Nat.shiftRight_eq_div_pow, Nat.reducePow]

theorem imm8Field_toNat (w : Word) : (imm8Field w).toNat = w.toNat / 2 % 256 := by
  simp only [imm8Field, BitVec.extractLsb'_toNat, Nat.shiftRight_eq_div_pow, Nat.reducePow]

theorem addr5Field_toNat (w : Word) : (addr5Field w).toNat = w.toNat % 32 := by
  simp only [addr5Field, BitVec.extractLsb'_toNat, Nat.shiftRight_eq_div_pow]; omega

theorem encI_toNat (op : BitVec 3) (i : RegIdx) (imm : Byte) :
    (encI op i imm).toNat = op.toNat * 8192 + i.toNat * 512 + imm.toNat * 2 := by
  have : (0 : BitVec 1).toNat = 0 := rfl
  simp only [encI, toNat_append_eq, this]; omega

theorem encR_toNat (op : BitVec 3) (i j k : RegIdx) :
    (encR op i j k).toNat = op.toNat * 8192 + i.toNat * 512 + j.toNat * 32 + k.toNat * 2 := by
  have : (0 : BitVec 1).toNat = 0 := rfl
  simp only [encR, toNat_append_eq, this]; omega

theorem encS_toNat (op : BitVec 3) (i : RegIdx) : (encS op i).toNat = op.toNat * 8192 + i.toNat * 512 := by
  have : (0 : BitVec 9).toNat = 0 := rfl
  simp only [encS, toNat_append_eq, this]; omega

theorem encB_toNat (op : BitVec 3) (i j : RegIdx) (a : Addr5) :
    (encB op i j a).toNat = op.toNat * 8192 + i.toNat * 512 + j.toNat * 32 + a.toNat := by
  simp only [encB, toNat_append_eq]; omega

theorem wordOfBytes_toNat (hi lo : Byte) : (wordOfBytes hi lo).toNat = hi.toNat * 256 + lo.toNat := by
  simp only [wordOfBytes, toNat_append_eq]; omega

/-- The opcode map and the opcode bits are inverse to each other (R79). -/
theorem ofBits_bits (o : Opcode) : Opcode.ofBits o.bits = o := by cases o <;> rfl

theorem bits_ofBits (b : BitVec 3) : (Opcode.ofBits b).bits = b := by revert b; decide

end Sys2Proof
end

