-- ==== Sys2Proof/Laws/Memory.lean ====
section
/-! SUPPORT. Memory: a write gives the byte written and leaves every other byte, and every operation keeps the canonical
form. -/

namespace Sys2Proof.Machine

/-- An address below every listed one holds the unlisted byte. -/
theorem Memory.byteAt_of_lt {m : Memory} {a : Nat} (h : ∀ c ∈ m, a < c.1) : m.byteAt a = Config.unlistedByte := by
  induction m with
  | nil => rfl
  | cons c m ih =>
    have hc := h c (by simp)
    rw [Memory.byteAt, if_neg (by omega), ih (fun d hd => h d (by simp [hd]))]

/-- Each address listed by a write was listed before or is the one written. -/
theorem Memory.mem_write {m : Memory} {a : Nat} {b : Byte} {c : Host.Cell} (h : c ∈ m.write a b) :
    c ∈ m ∨ (c = (a, b) ∧ b ≠ Config.unlistedByte) := by
  induction m with
  | nil =>
    simp only [Memory.write] at h
    split at h <;> simp_all
  | cons d m ih =>
    obtain ⟨d1, d2⟩ := d
    simp only [Memory.write] at h
    split at h
    · split at h
      · exact .inl h
      · next hb =>
        rcases List.mem_cons.mp h with h | h
        · exact .inr ⟨h, hb⟩
        · exact .inl h
    · split at h
      · split at h <;> simp_all
        tauto
      · rcases List.mem_cons.mp h with rfl | h
        · simp
        · rcases ih h with h | h <;> simp_all

/-- A write of a byte at an address that exists keeps the canonical form. -/
theorem Memory.wf_write {m : Memory} {a : Nat} {b : Byte} (hm : m.wf) (ha : a < Config.memSize) : (m.write a b).wf := by
  refine ⟨?_, ?_⟩
  · obtain ⟨hs, -⟩ := hm
    induction m with
    | nil => simp only [Memory.write]; split <;> simp
    | cons d m ih =>
      obtain ⟨d1, d2⟩ := d
      obtain ⟨hd, hs'⟩ := List.pairwise_cons.mp hs
      simp only [Memory.write]
      split
      · next hlt =>
        split
        · exact hs
        · refine List.pairwise_cons.mpr ⟨?_, hs⟩
          intro c hc
          rcases List.mem_cons.mp hc with rfl | hc
          · exact hlt
          · exact Nat.lt_trans hlt (hd c hc)
      · split
        · next heq =>
          split
          · exact hs'
          · exact List.pairwise_cons.mpr ⟨fun c hc => heq ▸ hd c hc, hs'⟩
        · refine List.pairwise_cons.mpr ⟨?_, ih hs'⟩
          intro c hc
          rcases Memory.mem_write hc with hc | ⟨rfl, -⟩
          · exact hd c hc
          · show d1 < a; omega
  · intro c hc
    rcases Memory.mem_write hc with hc | ⟨rfl, hb⟩
    · exact hm.2 c hc
    · exact ⟨ha, hb⟩

/-- A byte read after a write: the byte written at its address, every other one as before. -/
theorem Memory.byteAt_write {m : Memory} (hm : m.wf) (a : Nat) (b : Byte) (k : Nat) :
    (m.write a b).byteAt k = if k = a then b else m.byteAt k := by
  obtain ⟨hs, -⟩ := hm
  induction m with
  | nil =>
    simp only [Memory.write]
    by_cases hk : k = a
    · split <;> simp_all [Memory.byteAt]
    · split <;> simp [Memory.byteAt, Ne.symm hk]
  | cons d m ih =>
    obtain ⟨d1, d2⟩ := d
    obtain ⟨hd, hs'⟩ := List.pairwise_cons.mp hs
    simp only [Memory.write]
    split
    · next hlt =>
      have hlow : Memory.byteAt ((d1, d2) :: m) a = Config.unlistedByte :=
        Memory.byteAt_of_lt (fun c hc => by
          rcases List.mem_cons.mp hc with rfl | hc
          · exact hlt
          · exact Nat.lt_trans hlt (hd c hc))
      split
      · split <;> simp_all
      · by_cases hk : k = a
        · simp [Memory.byteAt, hk]
        · simp [Memory.byteAt, hk, Ne.symm hk]
    · split
      · next heq =>
        subst heq
        have hlow : Memory.byteAt m a = Config.unlistedByte := Memory.byteAt_of_lt hd
        split
        · next hb =>
          by_cases hk : k = a
          · simp [hk, hlow, hb]
          · simp [Memory.byteAt, hk, Ne.symm hk]
        · by_cases hk : k = a
          · simp [Memory.byteAt, hk]
          · simp [Memory.byteAt, hk, Ne.symm hk]
      · next hne =>
        simp only [Memory.byteAt, ih hs']
        by_cases hk : d1 = k
        · subst hk; simp [Ne.symm hne]
        · simp [hk]

/-- Bytes written inside memory keep the canonical form. -/
theorem Memory.wf_writeAll {bs : List Byte} {m : Memory} {a : Nat} (hm : m.wf) (h : a + bs.length ≤ Config.memSize) :
    (m.writeAll a bs).wf := by
  induction bs generalizing m a with
  | nil => exact hm
  | cons b bs ih =>
    simp only [List.length_cons] at h
    exact ih (Memory.wf_write hm (by omega)) (by omega)

/-- A byte read after the bytes `bs` are written from `a` on. -/
theorem Memory.byteAt_writeAll {bs : List Byte} {m : Memory} {a : Nat} (hm : m.wf)
    (h : a + bs.length ≤ Config.memSize) (k : Nat) :
    (m.writeAll a bs).byteAt k = if a ≤ k ∧ k < a + bs.length then bs.getD (k - a) 0 else m.byteAt k := by
  induction bs generalizing m a with
  | nil =>
    rw [Memory.writeAll, if_neg (by simp only [List.length_nil]; omega)]
  | cons b bs ih =>
    simp only [List.length_cons] at h
    rw [Memory.writeAll, ih (Memory.wf_write hm (by omega)) (by omega), Memory.byteAt_write hm]
    simp only [List.length_cons]
    by_cases hk : k = a
    · subst hk; simp
    · by_cases hin : a ≤ k ∧ k < a + (bs.length + 1)
      · obtain ⟨j, rfl⟩ : ∃ j, k = a + 1 + j := ⟨k - (a + 1), by omega⟩
        rw [if_pos (by omega), if_pos (by omega), show a + 1 + j - a = j + 1 by omega]
        simp
      · rw [if_neg (by omega), if_neg hk, if_neg (by omega)]

/-- The empty memory, which the reset state has, is canonical. -/
theorem Memory.wf_nil : Memory.wf [] := ⟨List.Pairwise.nil, fun _ h => by cases h⟩

/-- The reset state's memory is canonical. -/
theorem State.reset_memWf : Memory.wf State.reset.mem := Memory.wf_nil

/-- A read answers the byte an address that exists holds. -/
theorem Memory.read_inside {m : Memory} {a : Nat} (h : a < Config.memSize) : m.read a = .ok (m.byteAt a) := by
  simp [Memory.read, h]

/-- A word read inside memory is its two bytes, the lower address the high-order byte (R51). -/
theorem Memory.readWord_inside {m : Memory} {a : Nat} (h : a + 1 < Config.memSize) :
    m.readWord a = .ok (wordOfBytes (m.byteAt a) (m.byteAt (a + 1))) := by
  simp only [Memory.readWord, Memory.read_inside (show a < Config.memSize by omega), Memory.read_inside h]

/-- A word read past the end names the first byte that does not exist. -/
theorem Memory.readWord_outside {m : Memory} {a : Nat} (h : Config.memSize ≤ a + 1) :
    m.readWord a = .error (if a < Config.memSize then a + 1 else a) := by
  by_cases ha : a < Config.memSize
  · simp [Memory.readWord, Memory.read, ha, Nat.not_lt.mpr h]
  · simp [Memory.readWord, Memory.read, ha]

end Sys2Proof.Machine
end

