-- ==== Sys2Proof/Laws/Operands.lean ====
section
/-! SUPPORT. The operand forms and conditions in terms of numbers. -/

namespace Sys2Proof.Machine

theorem oddTarget_iff (a : Addr5) : oddTarget a = true ↔ a.toNat % 2 = 1 := by
  simp [oddTarget, BitVec.getLsbD, Nat.testBit]

/-- The target keeps its value: it is zero-extended, not scaled (R77). -/
@[simp] theorem branchTarget_toNat (a : Addr5) : (branchTarget a).toNat = a.toNat := by
  simp only [branchTarget, BitVec.toNat_setWidth]; omega

theorem lessUnsigned_iff (a b : Byte) : lessUnsigned a b = true ↔ a.toNat < b.toNat := by simp [lessUnsigned]

theorem insideImage_iff (s : State) : s.insideImage = true ↔ s.pc.toNat < s.len.toNat := by simp [State.insideImage]

theorem insideImage_eq_false_iff (s : State) : s.insideImage = false ↔ s.len.toNat ≤ s.pc.toNat := by
  simp [State.insideImage]

/-- The byte of an input integer is its residue modulo 256 that is not negative (R154). -/
theorem lowByte_toNat (n : Int) : ((lowByte n).toNat : Int) = n % 256 := by
  simp only [lowByte, BitVec.toNat_ofInt]; omega

end Sys2Proof.Machine
end

