-- ==== Sys2Proof/Laws/PerInstr.lean ====
section
/-! SUPPORT. Facts about every instruction as syntax: its assembler line is well formed and gives it back, and its
encoding carries its opcode. -/

namespace Sys2Proof.Laws

/-- The instruction is well formed, and its line read back is the instruction (R83, R84). -/
def SourceForm.Statement (i : Instr) : Prop :=
  i.wellFormed = true ∧ Machine.lineInstr i.toLine = some i

/-- Bits 15:13 of the encoding are the instruction's opcode (R71, R79). -/
def OpcodeBits.Statement (i : Instr) : Prop := opcodeField (encode i) = i.opcode.bits

/-- The opcode of a word laid out in this format. -/
theorem opcodeField_encI (op : BitVec 3) (i : RegIdx) (imm : Byte) : opcodeField (encI op i imm) = op := by
  ext b hb
  simp only [opcodeField, encI, BitVec.getElem_extractLsb', BitVec.getLsbD_append]
  have : b = 0 ∨ b = 1 ∨ b = 2 := by omega
  rcases this with rfl | rfl | rfl <;> simp [BitVec.getLsbD_eq_getElem]

/-- The opcode of a word laid out in this format. -/
theorem opcodeField_encR (op : BitVec 3) (i j k : RegIdx) : opcodeField (encR op i j k) = op := by
  ext b hb
  simp only [opcodeField, encR, BitVec.getElem_extractLsb', BitVec.getLsbD_append]
  have : b = 0 ∨ b = 1 ∨ b = 2 := by omega
  rcases this with rfl | rfl | rfl <;> simp [BitVec.getLsbD_eq_getElem]

/-- The opcode of a word laid out in this format. -/
theorem opcodeField_encS (op : BitVec 3) (i : RegIdx) : opcodeField (encS op i) = op := by
  ext b hb
  simp only [opcodeField, encS, BitVec.getElem_extractLsb', BitVec.getLsbD_append]
  have : b = 0 ∨ b = 1 ∨ b = 2 := by omega
  rcases this with rfl | rfl | rfl <;> simp [BitVec.getLsbD_eq_getElem]

/-- The opcode of a word laid out in this format. -/
theorem opcodeField_encB (op : BitVec 3) (i j : RegIdx) (a : Addr5) : opcodeField (encB op i j a) = op := by
  ext b hb
  simp only [opcodeField, encB, BitVec.getElem_extractLsb', BitVec.getLsbD_append]
  have : b = 0 ∨ b = 1 ∨ b = 2 := by omega
  rcases this with rfl | rfl | rfl <;> simp [BitVec.getLsbD_eq_getElem]

end Sys2Proof.Laws

theorem Sys2Proof.Laws.SourceForm.ldi (i : Sys2Proof.RegIdx) (imm : Sys2Proof.Byte) :
    Sys2Proof.Laws.SourceForm.Statement (.ldi i imm) := by
  constructor <;> simp [Sys2Proof.Instr.wellFormed, Sys2Proof.Machine.lineInstr, Sys2Proof.Instr.toLine,
    Sys2Proof.Line.wellFormed, Sys2Proof.Operand.isReg, Sys2Proof.Operand.isImm,
    Sys2Proof.Machine.operandValue, i.isLt, imm.isLt]

theorem Sys2Proof.Laws.SourceForm.add (i j k : Sys2Proof.RegIdx) :
    Sys2Proof.Laws.SourceForm.Statement (.add i j k) := by
  constructor <;> simp [Sys2Proof.Instr.wellFormed, Sys2Proof.Machine.lineInstr, Sys2Proof.Instr.toLine,
    Sys2Proof.Line.wellFormed, Sys2Proof.Operand.isReg,
    Sys2Proof.Machine.operandValue, i.isLt, j.isLt, k.isLt]

theorem Sys2Proof.Laws.SourceForm.and (i j k : Sys2Proof.RegIdx) :
    Sys2Proof.Laws.SourceForm.Statement (.and i j k) := by
  constructor <;> simp [Sys2Proof.Instr.wellFormed, Sys2Proof.Machine.lineInstr, Sys2Proof.Instr.toLine,
    Sys2Proof.Line.wellFormed, Sys2Proof.Operand.isReg,
    Sys2Proof.Machine.operandValue, i.isLt, j.isLt, k.isLt]

theorem Sys2Proof.Laws.SourceForm.or (i j k : Sys2Proof.RegIdx) :
    Sys2Proof.Laws.SourceForm.Statement (.or i j k) := by
  constructor <;> simp [Sys2Proof.Instr.wellFormed, Sys2Proof.Machine.lineInstr, Sys2Proof.Instr.toLine,
    Sys2Proof.Line.wellFormed, Sys2Proof.Operand.isReg,
    Sys2Proof.Machine.operandValue, i.isLt, j.isLt, k.isLt]

theorem Sys2Proof.Laws.SourceForm.xor (i j k : Sys2Proof.RegIdx) :
    Sys2Proof.Laws.SourceForm.Statement (.xor i j k) := by
  constructor <;> simp [Sys2Proof.Instr.wellFormed, Sys2Proof.Machine.lineInstr, Sys2Proof.Instr.toLine,
    Sys2Proof.Line.wellFormed, Sys2Proof.Operand.isReg,
    Sys2Proof.Machine.operandValue, i.isLt, j.isLt, k.isLt]

theorem Sys2Proof.Laws.SourceForm.prt (i : Sys2Proof.RegIdx) :
    Sys2Proof.Laws.SourceForm.Statement (.prt i) := by
  constructor <;> simp [Sys2Proof.Instr.wellFormed, Sys2Proof.Machine.lineInstr, Sys2Proof.Instr.toLine,
    Sys2Proof.Line.wellFormed, Sys2Proof.Operand.isReg,
    Sys2Proof.Machine.operandValue, i.isLt]

theorem Sys2Proof.Laws.SourceForm.rdd (i : Sys2Proof.RegIdx) :
    Sys2Proof.Laws.SourceForm.Statement (.rdd i) := by
  constructor <;> simp [Sys2Proof.Instr.wellFormed, Sys2Proof.Machine.lineInstr, Sys2Proof.Instr.toLine,
    Sys2Proof.Line.wellFormed, Sys2Proof.Operand.isReg,
    Sys2Proof.Machine.operandValue, i.isLt]

theorem Sys2Proof.Laws.SourceForm.blt (i j : Sys2Proof.RegIdx) (addr : Sys2Proof.Addr5) :
    Sys2Proof.Laws.SourceForm.Statement (.blt i j addr) := by
  constructor <;> simp [Sys2Proof.Instr.wellFormed, Sys2Proof.Machine.lineInstr, Sys2Proof.Instr.toLine,
    Sys2Proof.Line.wellFormed, Sys2Proof.Operand.isReg, Sys2Proof.Operand.isAddr,
    Sys2Proof.Machine.operandValue, i.isLt, j.isLt, addr.isLt]

theorem Sys2Proof.Laws.OpcodeBits.ldi (i : Sys2Proof.RegIdx) (imm : Sys2Proof.Byte) :
    Sys2Proof.Laws.OpcodeBits.Statement (.ldi i imm) :=
  Sys2Proof.Laws.opcodeField_encI _ _ _

theorem Sys2Proof.Laws.OpcodeBits.add (i j k : Sys2Proof.RegIdx) :
    Sys2Proof.Laws.OpcodeBits.Statement (.add i j k) :=
  Sys2Proof.Laws.opcodeField_encR _ _ _ _

theorem Sys2Proof.Laws.OpcodeBits.and (i j k : Sys2Proof.RegIdx) :
    Sys2Proof.Laws.OpcodeBits.Statement (.and i j k) :=
  Sys2Proof.Laws.opcodeField_encR _ _ _ _

theorem Sys2Proof.Laws.OpcodeBits.or (i j k : Sys2Proof.RegIdx) :
    Sys2Proof.Laws.OpcodeBits.Statement (.or i j k) :=
  Sys2Proof.Laws.opcodeField_encR _ _ _ _

theorem Sys2Proof.Laws.OpcodeBits.xor (i j k : Sys2Proof.RegIdx) :
    Sys2Proof.Laws.OpcodeBits.Statement (.xor i j k) :=
  Sys2Proof.Laws.opcodeField_encR _ _ _ _

theorem Sys2Proof.Laws.OpcodeBits.prt (i : Sys2Proof.RegIdx) :
    Sys2Proof.Laws.OpcodeBits.Statement (.prt i) :=
  Sys2Proof.Laws.opcodeField_encS _ _

theorem Sys2Proof.Laws.OpcodeBits.rdd (i : Sys2Proof.RegIdx) :
    Sys2Proof.Laws.OpcodeBits.Statement (.rdd i) :=
  Sys2Proof.Laws.opcodeField_encS _ _

theorem Sys2Proof.Laws.OpcodeBits.blt (i j : Sys2Proof.RegIdx) (addr : Sys2Proof.Addr5) :
    Sys2Proof.Laws.OpcodeBits.Statement (.blt i j addr) :=
  Sys2Proof.Laws.opcodeField_encB _ _ _ _
end

