-- ==== Sys2Proof/Laws/State.lean ====
section
/-! SUPPORT. One lemma per field per update, and the reads of one register after it. -/

namespace Sys2Proof.Machine

/-! ### writeReg -/

@[simp] theorem State.writeReg_x (s : State) (i : RegIdx) (v : Byte) : (s.writeReg i v).x = s.x.set i.toNat v i.isLt := rfl
@[simp] theorem State.writeReg_mem (s : State) (i : RegIdx) (v : Byte) : (s.writeReg i v).mem = s.mem := rfl
@[simp] theorem State.writeReg_pc (s : State) (i : RegIdx) (v : Byte) : (s.writeReg i v).pc = s.pc := rfl
@[simp] theorem State.writeReg_ir (s : State) (i : RegIdx) (v : Byte) : (s.writeReg i v).ir = s.ir := rfl
@[simp] theorem State.writeReg_len (s : State) (i : RegIdx) (v : Byte) : (s.writeReg i v).len = s.len := rfl
@[simp] theorem State.writeReg_state (s : State) (i : RegIdx) (v : Byte) : (s.writeReg i v).state = s.state := rfl
@[simp] theorem State.writeReg_err (s : State) (i : RegIdx) (v : Byte) : (s.writeReg i v).err = s.err := rfl
@[simp] theorem State.writeReg_waiting (s : State) (i : RegIdx) (v : Byte) : (s.writeReg i v).waiting = s.waiting := rfl
@[simp] theorem State.writeReg_input (s : State) (i : RegIdx) (v : Byte) : (s.writeReg i v).input = s.input := rfl
@[simp] theorem State.writeReg_trace (s : State) (i : RegIdx) (v : Byte) : (s.writeReg i v).trace = s.trace := rfl

/-! ### jump -/

@[simp] theorem State.jump_x (s : State) (p : PcWord) : (s.jump p).x = s.x := rfl
@[simp] theorem State.jump_mem (s : State) (p : PcWord) : (s.jump p).mem = s.mem := rfl
@[simp] theorem State.jump_pc (s : State) (p : PcWord) : (s.jump p).pc = p := rfl
@[simp] theorem State.jump_ir (s : State) (p : PcWord) : (s.jump p).ir = s.ir := rfl
@[simp] theorem State.jump_len (s : State) (p : PcWord) : (s.jump p).len = s.len := rfl
@[simp] theorem State.jump_state (s : State) (p : PcWord) : (s.jump p).state = s.state := rfl
@[simp] theorem State.jump_err (s : State) (p : PcWord) : (s.jump p).err = s.err := rfl
@[simp] theorem State.jump_waiting (s : State) (p : PcWord) : (s.jump p).waiting = s.waiting := rfl
@[simp] theorem State.jump_input (s : State) (p : PcWord) : (s.jump p).input = s.input := rfl
@[simp] theorem State.jump_trace (s : State) (p : PcWord) : (s.jump p).trace = s.trace := rfl
@[simp] theorem State.jump_reg (s : State) (p : PcWord) (r : RegIdx) : (s.jump p).reg r = s.reg r := rfl

/-! ### fail -/

@[simp] theorem State.fail_x (s : State) (c : ErrCause) : (s.fail c).x = s.x := rfl
@[simp] theorem State.fail_mem (s : State) (c : ErrCause) : (s.fail c).mem = s.mem := rfl
@[simp] theorem State.fail_pc (s : State) (c : ErrCause) : (s.fail c).pc = s.pc := rfl
@[simp] theorem State.fail_ir (s : State) (c : ErrCause) : (s.fail c).ir = s.ir := rfl
@[simp] theorem State.fail_len (s : State) (c : ErrCause) : (s.fail c).len = s.len := rfl
@[simp] theorem State.fail_state (s : State) (c : ErrCause) : (s.fail c).state = .haltedError := rfl
@[simp] theorem State.fail_err (s : State) (c : ErrCause) : (s.fail c).err = c := rfl
@[simp] theorem State.fail_waiting (s : State) (c : ErrCause) : (s.fail c).waiting = s.waiting := rfl
@[simp] theorem State.fail_input (s : State) (c : ErrCause) : (s.fail c).input = s.input := rfl
@[simp] theorem State.fail_trace (s : State) (c : ErrCause) : (s.fail c).trace = s.trace := rfl
@[simp] theorem State.fail_reg (s : State) (c : ErrCause) (r : RegIdx) : (s.fail c).reg r = s.reg r := rfl

/-! ### output -/

@[simp] theorem State.output_x (s : State) (i : RegIdx) (v : Byte) : (s.output i v).x = s.x := rfl
@[simp] theorem State.output_mem (s : State) (i : RegIdx) (v : Byte) : (s.output i v).mem = s.mem := rfl
@[simp] theorem State.output_pc (s : State) (i : RegIdx) (v : Byte) : (s.output i v).pc = s.pc := rfl
@[simp] theorem State.output_ir (s : State) (i : RegIdx) (v : Byte) : (s.output i v).ir = s.ir := rfl
@[simp] theorem State.output_len (s : State) (i : RegIdx) (v : Byte) : (s.output i v).len = s.len := rfl
@[simp] theorem State.output_state (s : State) (i : RegIdx) (v : Byte) : (s.output i v).state = s.state := rfl
@[simp] theorem State.output_err (s : State) (i : RegIdx) (v : Byte) : (s.output i v).err = s.err := rfl
@[simp] theorem State.output_waiting (s : State) (i : RegIdx) (v : Byte) : (s.output i v).waiting = s.waiting := rfl
@[simp] theorem State.output_input (s : State) (i : RegIdx) (v : Byte) : (s.output i v).input = s.input := rfl
@[simp] theorem State.output_trace (s : State) (i : RegIdx) (v : Byte) : (s.output i v).trace = s.trace ++ [.out i v] := rfl
@[simp] theorem State.output_reg (s : State) (i : RegIdx) (v : Byte) (r : RegIdx) : (s.output i v).reg r = s.reg r := rfl

/-! ### advance -/

@[simp] theorem State.advance_x (s : State) (w : Word) : (s.advance w).x = s.x := rfl
@[simp] theorem State.advance_mem (s : State) (w : Word) : (s.advance w).mem = s.mem := rfl
@[simp] theorem State.advance_pc (s : State) (w : Word) : (s.advance w).pc = s.pc + 2 := rfl
@[simp] theorem State.advance_ir (s : State) (w : Word) : (s.advance w).ir = w := rfl
@[simp] theorem State.advance_len (s : State) (w : Word) : (s.advance w).len = s.len := rfl
@[simp] theorem State.advance_state (s : State) (w : Word) : (s.advance w).state = s.state := rfl
@[simp] theorem State.advance_err (s : State) (w : Word) : (s.advance w).err = s.err := rfl
@[simp] theorem State.advance_waiting (s : State) (w : Word) : (s.advance w).waiting = s.waiting := rfl
@[simp] theorem State.advance_input (s : State) (w : Word) : (s.advance w).input = s.input := rfl
@[simp] theorem State.advance_trace (s : State) (w : Word) : (s.advance w).trace = s.trace := rfl
@[simp] theorem State.advance_reg (s : State) (w : Word) (r : RegIdx) : (s.advance w).reg r = s.reg r := rfl

/-! ### supply -/

@[simp] theorem State.supply_x (s : State) (n : Int) : (s.supply n).x = s.x := rfl
@[simp] theorem State.supply_mem (s : State) (n : Int) : (s.supply n).mem = s.mem := rfl
@[simp] theorem State.supply_pc (s : State) (n : Int) : (s.supply n).pc = s.pc := rfl
@[simp] theorem State.supply_ir (s : State) (n : Int) : (s.supply n).ir = s.ir := rfl
@[simp] theorem State.supply_len (s : State) (n : Int) : (s.supply n).len = s.len := rfl
@[simp] theorem State.supply_state (s : State) (n : Int) : (s.supply n).state = s.state := rfl
@[simp] theorem State.supply_err (s : State) (n : Int) : (s.supply n).err = s.err := rfl
@[simp] theorem State.supply_waiting (s : State) (n : Int) : (s.supply n).waiting = s.waiting := rfl
@[simp] theorem State.supply_input (s : State) (n : Int) : (s.supply n).input = s.input ++ [n] := rfl
@[simp] theorem State.supply_trace (s : State) (n : Int) : (s.supply n).trace = s.trace := rfl
@[simp] theorem State.supply_reg (s : State) (n : Int) (r : RegIdx) : (s.supply n).reg r = s.reg r := rfl

/-- The register written reads as the value written. -/
@[simp] theorem State.writeReg_reg_same (s : State) (i : RegIdx) (v : Byte) : (s.writeReg i v).reg i = v := by
  simp [State.writeReg, State.reg]

/-- Every other register reads as before. -/
theorem State.writeReg_reg_other (s : State) {i r : RegIdx} (v : Byte) (h : r ≠ i) :
    (s.writeReg i v).reg r = s.reg r := by
  have : i.toNat ≠ r.toNat := fun e => h (BitVec.eq_of_toNat_eq e.symm)
  simp [State.writeReg, State.reg, this]

/-- A register after a write, either way. -/
theorem State.writeReg_reg (s : State) (i r : RegIdx) (v : Byte) :
    (s.writeReg i v).reg r = if r = i then v else s.reg r := by
  split
  · next h => rw [h, State.writeReg_reg_same]
  · next h => exact State.writeReg_reg_other s v h

/-! ### awaitInput -/

/-- With no integer supplied, only the wait is recorded. -/
theorem State.awaitInput_nil (s : State) (i : RegIdx) (h : s.input = []) :
    s.awaitInput i = { s with waiting := some i } := by
  simp [State.awaitInput, h]

/-- With one supplied, its low byte is written, the event recorded and the wait ended. -/
theorem State.awaitInput_cons (s : State) (i : RegIdx) {n : Int} {rest : List Int} (h : s.input = n :: rest) :
    s.awaitInput i = { s.writeReg i (lowByte n) with
      input := rest, trace := s.trace ++ [.inp n], waiting := none } := by
  simp [State.awaitInput, h]

@[simp] theorem State.awaitInput_mem (s : State) (i : RegIdx) : (s.awaitInput i).mem = s.mem := by
  unfold State.awaitInput; split <;> rfl

@[simp] theorem State.awaitInput_pc (s : State) (i : RegIdx) : (s.awaitInput i).pc = s.pc := by
  unfold State.awaitInput; split <;> rfl

@[simp] theorem State.awaitInput_ir (s : State) (i : RegIdx) : (s.awaitInput i).ir = s.ir := by
  unfold State.awaitInput; split <;> rfl

@[simp] theorem State.awaitInput_len (s : State) (i : RegIdx) : (s.awaitInput i).len = s.len := by
  unfold State.awaitInput; split <;> rfl

@[simp] theorem State.awaitInput_state (s : State) (i : RegIdx) : (s.awaitInput i).state = s.state := by
  unfold State.awaitInput; split <;> rfl

@[simp] theorem State.awaitInput_err (s : State) (i : RegIdx) : (s.awaitInput i).err = s.err := by
  unfold State.awaitInput; split <;> rfl

/-! ### continueRun -/

@[simp] theorem State.continueRun_x (s : State) : s.continueRun.x = s.x := by
  unfold State.continueRun; split <;> rfl

@[simp] theorem State.continueRun_mem (s : State) : s.continueRun.mem = s.mem := by
  unfold State.continueRun; split <;> rfl

@[simp] theorem State.continueRun_pc (s : State) : s.continueRun.pc = s.pc := by
  unfold State.continueRun; split <;> rfl

@[simp] theorem State.continueRun_ir (s : State) : s.continueRun.ir = s.ir := by
  unfold State.continueRun; split <;> rfl

@[simp] theorem State.continueRun_len (s : State) : s.continueRun.len = s.len := by
  unfold State.continueRun; split <;> rfl

@[simp] theorem State.continueRun_err (s : State) : s.continueRun.err = s.err := by
  unfold State.continueRun; split <;> rfl

@[simp] theorem State.continueRun_waiting (s : State) : s.continueRun.waiting = s.waiting := by
  unfold State.continueRun; split <;> rfl

@[simp] theorem State.continueRun_input (s : State) : s.continueRun.input = s.input := by
  unfold State.continueRun; split <;> rfl

@[simp] theorem State.continueRun_trace (s : State) : s.continueRun.trace = s.trace := by
  unfold State.continueRun; split <;> rfl

@[simp] theorem State.continueRun_reg (s : State) (r : RegIdx) : s.continueRun.reg r = s.reg r := by
  simp [State.reg]

/-- The continuation test writes the engine state of a running engine outside the image. -/
theorem State.continueRun_state (s : State) :
    s.continueRun.state =
      if s.state = .running ∧ s.len.toNat ≤ s.pc.toNat then .haltedNormal else s.state := by
  unfold State.continueRun State.insideImage
  simp only [decide_eq_false_iff_not, Nat.not_lt]
  split <;> rfl

end Sys2Proof.Machine
end

