-- ==== Sys2Proof/Laws/Step.lean ====
section
/-! SUPPORT. What each instruction answers, and everything one step can do. -/

namespace Sys2Proof.Machine

theorem exec_ldi (i : RegIdx) (imm : Byte) (s : State) : exec (.ldi i imm) s = .next (s.writeReg i imm) := rfl

theorem exec_add (i j k : RegIdx) (s : State) :
    exec (.add i j k) s = .next (s.writeReg k (BitVec.ofNat 8 ((s.reg i).toNat + (s.reg j).toNat))) := rfl

theorem exec_and (i j k : RegIdx) (s : State) : exec (.and i j k) s = .next (s.writeReg k (s.reg i &&& s.reg j)) := rfl

theorem exec_or (i j k : RegIdx) (s : State) : exec (.or i j k) s = .next (s.writeReg k (s.reg i ||| s.reg j)) := rfl

theorem exec_xor (i j k : RegIdx) (s : State) : exec (.xor i j k) s = .next (s.writeReg k (s.reg i ^^^ s.reg j)) := rfl

theorem exec_prt (i : RegIdx) (s : State) : exec (.prt i) s = .next (s.output i (s.reg i)) := rfl

theorem exec_rdd (i : RegIdx) (s : State) : exec (.rdd i) s = .next (s.awaitInput i) := rfl

/-- BLT's three outcomes: failure, taken, not taken. -/
theorem exec_blt (i j : RegIdx) (a : Addr5) (s : State) :
    exec (.blt i j a) s = .next (
      if oddTarget a then s.fail .misalignedBranch
      else if lessUnsigned (s.reg i) (s.reg j) then s.jump (branchTarget a)
      else s) := by
  simp only [exec, execBlt]; split
  · rfl
  · split <;> rfl

theorem exec_blt_odd {i j : RegIdx} {a : Addr5} (s : State) (h : a.toNat % 2 = 1) :
    exec (.blt i j a) s = .next (s.fail .misalignedBranch) := by
  rw [exec_blt, if_pos ((oddTarget_iff a).mpr h)]

theorem exec_blt_taken {i j : RegIdx} {a : Addr5} {s : State} (h : a.toNat % 2 = 0)
    (hlt : (s.reg i).toNat < (s.reg j).toNat) : exec (.blt i j a) s = .next (s.jump (branchTarget a)) := by
  rw [exec_blt, if_neg (by rw [oddTarget_iff]; omega), if_pos ((lessUnsigned_iff _ _).mpr hlt)]

theorem exec_blt_not_taken {i j : RegIdx} {a : Addr5} {s : State} (h : a.toNat % 2 = 0)
    (hlt : ¬ (s.reg i).toNat < (s.reg j).toNat) : exec (.blt i j a) s = .next s := by
  rw [exec_blt, if_neg (by rw [oddTarget_iff]; omega), if_neg (by rwa [lessUnsigned_iff])]

/-- The wait, or the integer taken. -/
theorem awaitInput_cases (s : State) (i : RegIdx) :
    (s.input = [] ∧ s.awaitInput i = { s with waiting := some i }) ∨
    ∃ n rest, s.input = n :: rest ∧ s.awaitInput i = { s.writeReg i (lowByte n) with
      input := rest, trace := s.trace ++ [.inp n], waiting := none } := by
  by_cases h : s.input = []
  · exact .inl ⟨h, State.awaitInput_nil s i h⟩
  · obtain ⟨n, rest, h⟩ := List.exists_cons_of_ne_nil h
    exact .inr ⟨n, rest, h, State.awaitInput_cons s i h⟩

/-- Everything an instruction can answer: a register written, an event emitted, an input awaited, or BLT's three
outcomes. -/
theorem exec_cases {i : Instr} {s t : State} (h : exec i s = .next t) :
    (∃ k v, destination i = some k ∧ i.opcode ≠ .prt ∧ i.opcode ≠ .rdd ∧ i.opcode ≠ .blt ∧ t = s.writeReg k v) ∨
    (∃ r, i = .prt r ∧ t = s.output r (s.reg r)) ∨
    (∃ r, i = .rdd r ∧ t = s.awaitInput r) ∨
    (∃ r q a, i = .blt r q a ∧
      ((a.toNat % 2 = 1 ∧ t = s.fail .misalignedBranch) ∨
       (a.toNat % 2 = 0 ∧ (s.reg r).toNat < (s.reg q).toNat ∧ t = s.jump (branchTarget a)) ∨
       (a.toNat % 2 = 0 ∧ ¬ (s.reg r).toNat < (s.reg q).toNat ∧ t = s))) := by
  cases i with
  | ldi r v => rw [exec_ldi] at h; cases h; exact .inl ⟨_, _, rfl, nofun, nofun, nofun, rfl⟩
  | add r q k => rw [exec_add] at h; cases h; exact .inl ⟨_, _, rfl, nofun, nofun, nofun, rfl⟩
  | and r q k => rw [exec_and] at h; cases h; exact .inl ⟨_, _, rfl, nofun, nofun, nofun, rfl⟩
  | or r q k => rw [exec_or] at h; cases h; exact .inl ⟨_, _, rfl, nofun, nofun, nofun, rfl⟩
  | xor r q k => rw [exec_xor] at h; cases h; exact .inl ⟨_, _, rfl, nofun, nofun, nofun, rfl⟩
  | prt r => rw [exec_prt] at h; cases h; exact .inr (.inl ⟨_, rfl, rfl⟩)
  | rdd r => rw [exec_rdd] at h; cases h; exact .inr (.inr (.inl ⟨_, rfl, rfl⟩))
  | blt r q a =>
    refine .inr (.inr (.inr ⟨r, q, a, rfl, ?_⟩))
    rcases Nat.mod_two_eq_zero_or_one a.toNat with ha | ha
    · by_cases hlt : (s.reg r).toNat < (s.reg q).toNat
      · rw [exec_blt_taken ha hlt] at h; cases h; exact .inr (.inl ⟨ha, hlt, rfl⟩)
      · rw [exec_blt_not_taken ha hlt] at h; cases h; exact .inr (.inr ⟨ha, hlt, rfl⟩)
    · rw [exec_blt_odd s ha] at h; cases h; exact .inl ⟨ha, rfl⟩

/-- The engine goes on from a handler's answer exactly when the handler has returned. -/
theorem afterHandler_next {o : Host.Outcome State Fault Refusal} {t : State} :
    afterHandler o = .next t ↔ ∃ u, o = .next u ∧ u.waiting = none ∧ t = u.continueRun := by
  cases o with
  | next u => cases hw : u.waiting <;> simp [afterHandler, hw, eq_comm]
  | fault f => simp [afterHandler]
  | refused r => simp [afterHandler]

/-- It has no step exactly when the handler waits (or stops that way itself, which none does). -/
theorem afterHandler_waiting {o : Host.Outcome State Fault Refusal} {i : RegIdx} :
    afterHandler o = .fault (.waitingForInput i) ↔
      (∃ u, o = .next u ∧ u.waiting = some i) ∨ o = .fault (.waitingForInput i) := by
  cases o with
  | next u => cases hw : u.waiting <;> simp [afterHandler, hw]
  | fault f => simp [afterHandler]
  | refused r => simp [afterHandler]

/-- After a look at the IN channel nothing waits exactly when an integer was there. -/
theorem awaitInput_waiting_eq_none (s : State) (i : RegIdx) : (s.awaitInput i).waiting = none ↔ s.input ≠ [] := by
  obtain ⟨h, e⟩ | ⟨n, rest, h, e⟩ := awaitInput_cases s i <;> simp [e, h]

/-- A next state of `step` comes from an RDD that waited and has its integer, from the continuation test, or from a whole
cycle. -/
theorem step_cases {s t : State} (h : step s = .next t) :
    s.state = .running ∧
      ((∃ i, s.waiting = some i ∧ s.input ≠ [] ∧ t = (s.awaitInput i).continueRun) ∨
       (s.waiting = none ∧ s.insideImage = false ∧ t = s.continueRun) ∨
       (s.waiting = none ∧ s.insideImage = true ∧ ∃ w u, s.fetchWord = .ok w ∧
          exec (decodeWord w) (s.advance w) = .next u ∧ u.waiting = none ∧ t = u.continueRun)) := by
  unfold step engineStep at h
  split at h
  · cases h
  · cases h
  · next hr =>
    refine ⟨hr, ?_⟩
    split at h
    · next i hw =>
      obtain ⟨u, hu, huw, rfl⟩ := afterHandler_next.mp h
      cases hu
      exact .inl ⟨i, hw, (awaitInput_waiting_eq_none s i).mp huw, rfl⟩
    · next hw =>
      split at h
      · next hin =>
        refine .inr (.inr ⟨hw, hin, ?_⟩)
        unfold cycle at h
        split at h
        · cases h
        · next w hf =>
          obtain ⟨u, hu, huw, rfl⟩ := afterHandler_next.mp h
          exact ⟨w, u, hf, hu, huw, rfl⟩
      · next hin => cases h; exact .inr (.inl ⟨hw, by simpa using hin, rfl⟩)

/-- What a machine ready for a cycle answers: the handler's answer, taken by the engine. -/
theorem step_of_ready {s : State} {w : Word} (hr : s.state = .running) (hw : s.waiting = none)
    (hin : s.pc.toNat < s.len.toNat) (hf : s.fetchWord = .ok w) :
    step s = afterHandler (exec (decodeWord w) (s.advance w)) := by
  simp [step, engineStep, hr, hw, (insideImage_iff s).mpr hin, cycle, hf]

/-- A whole cycle: what `step` answers where the handler has returned. -/
theorem step_of_cycle {s u : State} {w : Word} (hr : s.state = .running) (hw : s.waiting = none)
    (hin : s.pc.toNat < s.len.toNat) (hf : s.fetchWord = .ok w) (he : exec (decodeWord w) (s.advance w) = .next u)
    (hu : u.waiting = none) : step s = .next u.continueRun := by
  rw [step_of_ready hr hw hin hf]
  exact afterHandler_next.mpr ⟨u, he, hu, rfl⟩

/-- A waiting machine looks at its input. -/
theorem step_of_waiting {s : State} {i : RegIdx} (hr : s.state = .running) (hw : s.waiting = some i) :
    step s = afterHandler (.next (s.awaitInput i)) := by
  simp [step, engineStep, hr, hw, execRdd]

/-- In the middle of an RDD that waits the machine is its state after the fetch, the register recorded. -/
theorem waitState_of_rdd {s : State} {w : Word} {i : RegIdx} (hr : s.state = .running) (hw : s.waiting = none)
    (hin : s.pc.toNat < s.len.toNat) (hf : s.fetchWord = .ok w) (hd : decodeWord w = .rdd i) (hq : s.input = []) :
    s.waitState = { s.advance w with waiting := some i } := by
  have hq' : (s.advance w).input = [] := hq
  simp [State.waitState, hr, hw, (insideImage_iff s).mpr hin, hf, hd, exec_rdd, State.awaitInput_nil _ _ hq']

/-- What is seen of a machine: the machine, or the middle of an RDD that waits. -/
theorem waitState_cases (s : State) :
    s.waitState = s ∨ ∃ w i, s.state = .running ∧ s.waiting = none ∧ s.pc.toNat < s.len.toNat ∧
      s.fetchWord = .ok w ∧ decodeWord w = .rdd i ∧ s.input = [] ∧
      s.waitState = { s.advance w with waiting := some i } := by
  by_cases hc : s.state = .running ∧ s.waiting = none ∧ s.insideImage = true
  · obtain ⟨hr, hw, hin⟩ := hc
    cases hf : s.fetchWord with
    | error e => exact .inl (by simp [State.waitState, hr, hw, hin, hf])
    | ok w =>
      cases he : exec (decodeWord w) (s.advance w) with
      | fault f => exact .inl (by simp [State.waitState, hr, hw, hin, hf, he])
      | refused r => exact .inl (by simp [State.waitState, hr, hw, hin, hf, he])
      | next u =>
        by_cases huw : u.waiting = none
        · exact .inl (by simp [State.waitState, hr, hw, hin, hf, he, huw])
        · obtain ⟨k, v, -, -, -, -, rfl⟩ | ⟨r, -, rfl⟩ | ⟨r, hd, rfl⟩ |
            ⟨r, q, a, -, ⟨-, rfl⟩ | ⟨-, -, rfl⟩ | ⟨-, -, rfl⟩⟩ := exec_cases he
          · exact absurd hw huw
          · exact absurd hw huw
          · have hq : s.input = [] := by
              by_contra h
              exact huw ((awaitInput_waiting_eq_none _ r).mpr h)
            have hin' := (insideImage_iff s).mp hin
            exact .inr ⟨w, r, hr, hw, hin', rfl, hd, hq, waitState_of_rdd hr hw hin' hf hd hq⟩
          · exact absurd hw huw
          · exact absurd hw huw
          · exact absurd hw huw
  · exact .inl (by simp [State.waitState, hc])

/-- A run of no steps. -/
theorem run_zero (s : State) : Host.Core.run core 0 s = .next s := rfl

/-- A run that begins with a next state goes on from it. -/
theorem run_succ {s t : State} (h : step s = .next t) (k : Nat) :
    Host.Core.run core (k + 1) s = Host.Core.run core k t := by
  have h' : core.step s = .next t := h
  simp [Host.Core.run, h']

end Sys2Proof.Machine
end

