-- ==== Sys2Proof/Tests/Slice0.lean ====
section
/-! SUPPORT. Tests: the check of ill-formed lines, words written out bit by bit from the encoding tables, one or two
steps per instruction with the results of 95_test_vectors.md, and a witness for every statement with hypotheses. -/

namespace Sys2Proof.Tests

open Sys2Proof.Machine

/-! ### Ill-formed lines are refused (R84) -/

theorem test_line_ok : (Line.mk .ldi [.reg 15, .num 255]).wellFormed = true := by decide
theorem test_reg_16_refused : (Line.mk .prt [.reg 16]).wellFormed = false := by decide
theorem test_imm_256_refused : (Line.mk .ldi [.reg 0, .num 256]).wellFormed = false := by decide
theorem test_addr_32_refused : (Line.mk .blt [.reg 0, .reg 1, .num 32]).wellFormed = false := by decide
theorem test_odd_addr_ok : (Line.mk .blt [.reg 0, .reg 1, .num 31]).wellFormed = true := by decide
theorem test_number_for_register_refused : (Line.mk .add [.reg 1, .num 2, .reg 3]).wellFormed = false := by decide
theorem test_register_for_imm_refused : (Line.mk .ldi [.reg 1, .reg 2]).wellFormed = false := by decide
theorem test_register_for_addr_refused : (Line.mk .blt [.reg 1, .reg 2, .reg 3]).wellFormed = false := by decide
theorem test_missing_operand_refused : (Line.mk .xor [.reg 1, .reg 2]).wellFormed = false := by decide

/-! ### Words written out from the formats (R73 to R76, R82) and the decode table of 95_test_vectors.md -/

-- opcode 000, Ri 0001, imm 00001010, unused 0
theorem test_decode_ldi : decodeWord 0b0000001000010100 = .ldi 1 10 := by decide
-- imm bit 7 comes from word bit 8: 0x0500
theorem test_decode_ldi_imm_top : decodeWord 0b0000010100000000 = .ldi 2 128 := by decide
-- opcode 001, Ri 0001, Rj 0010, Rk 0011, unused 0
theorem test_decode_add : decodeWord 0b0010001001000110 = .add 1 2 3 := by decide
-- opcode 010, Ri 0100, Rj 0101, Rk 0110, unused 0
theorem test_decode_and : decodeWord 0b0100100010101100 = .and 4 5 6 := by decide
-- opcode 011
theorem test_decode_or : decodeWord 0b0110100010101100 = .or 4 5 6 := by decide
-- opcode 100
theorem test_decode_xor : decodeWord 0b1000100010101100 = .xor 4 5 6 := by decide
-- opcode 101, Ri 1111, nine unused bits, all set
theorem test_decode_prt : decodeWord 0b1011111111111111 = .prt 15 := by decide
-- opcode 110, Ri 0011
theorem test_decode_rdd : decodeWord 0b1100011000000000 = .rdd 3 := by decide
-- opcode 111, Ri 0000, Rj 0001, address 11110
theorem test_decode_blt : decodeWord 0b1110000000111110 = .blt 0 1 30 := by decide
-- S1: 0x0001 re-encodes as 0x0000
theorem test_reencode_clears_unused : encode (decodeWord 0x0001) = 0x0000 := by decide
-- S2: the bytes 08 05 are LDI R4 2
theorem test_decode_bytes : decodeBytes [0x08, 0x05] = .ok (.ldi 4 2, []) := by decide
theorem test_decode_half_word : decodeBytes [0x08] = .error .halfWord := by decide
theorem test_table_word : decodeTableWord 16 0x868A = some (.xor 3 4 5) := by decide

/-! ### Text (R83, R86, R152) -/

/-- A loaded machine whose next word is `w`, at address 0. -/
def at0 (w : Nat) : State := State.reset.withFetchWord 16 w

-- the longest mnemonic
theorem test_text_add :
    instrText (.add 15 15 15) = ['A', 'D', 'D', ' ', 'R', '1', '5', ' ', 'R', '1', '5', ' ', 'R', '1', '5'] := by decide
theorem test_assemble_blt :
    assemble ['B', 'L', 'T', ' ', 'R', '0', ' ', 'R', '1', ' ', '3', '0'] = some (.blt 0 1 30) := by decide
theorem test_assemble_refuses_r16 : assemble ['P', 'R', 'T', ' ', 'R', '1', '6'] = none := by decide
-- S2: the listing of the image 00 0A
theorem test_listing : listingText (at0 0x000A) = ['0', ':', ' ', 'L', 'D', 'I', ' ', 'R', '0', ' ', '5'] := by decide
-- O1: Out(5, 43)
theorem test_console : consoleLine 5 43 = ['R', '5', ' ', '=', ' ', '4', '3', '\n'] := by decide

/-! ### Small states -/

/-- `at0` with two registers set. -/
def at0With (w : Nat) (i : RegIdx) (a : Byte) (j : RegIdx) (b : Byte) : State := ((at0 w).writeReg i a).writeReg j b

/-- `LDI R1 10`. -/
def sLdi : State := at0 0x0214
/-- `BLT R0 R1 30` with 0 < 1. -/
def sTaken : State := at0With 0xE03E 0 0 1 1
/-- `BLT R0 R1 30` with 1 > 0. -/
def sNotTaken : State := at0With 0xE03E 0 1 1 0
/-- `BLT R0 R1 3` with 1 > 0. -/
def sOdd : State := at0With 0xE023 0 1 1 0
/-- `BLT R0 R1 0`, a branch to itself, with 0 < 1. -/
def sSelf : State := at0With 0xE020 0 0 1 1
/-- `RDD R3` with 300 supplied. -/
def sInput : State := (at0 0xC600).supply 300
/-- `RDD R3` with nothing supplied. -/
def sNoInput : State := at0 0xC600
/-- The same in the middle of its cycle: I8 gives `pc` already advanced. -/
def sWaiting : State := { sNoInput with ir := 0xC600, pc := 2, waiting := some 3 }

/-- What `f` reads in the state a step from `s` gives, if it gives one. -/
def after {α : Type} (s : State) (f : State → α) : Option α :=
  match step s with
  | .next t => some (f t)
  | .fault _ => none
  | .refused _ => none

/-! ### One step per instruction: the vectors of 95_test_vectors.md part 2 -/

-- L1
theorem test_ldi : after sLdi (fun t => (t.reg 1, t.pc)) = some (10, 2) := by decide
-- L3: bit 0 ignored
theorem test_ldi_max : after (at0 0x1FFF) (fun t => t.reg 15) = some 255 := by decide
-- A3: 200 + 100
theorem test_add_wraps : after (at0With 0x2246 1 200 2 100) (fun t => t.reg 3) = some 44 := by decide
-- A6: the destination is a source
theorem test_add_alias : after (at0With 0x2242 1 250 2 10) (fun t => (t.reg 1, t.reg 2)) = some (4, 10) := by decide
-- A8
theorem test_and : after (at0With 0x48AC 4 0xF0 5 0x3C) (fun t => t.reg 6) = some 0x30 := by decide
-- A9
theorem test_or : after (at0With 0x68AC 4 0xF0 5 0x3C) (fun t => t.reg 6) = some 0xFC := by decide
-- A10
theorem test_xor : after (at0With 0x88AC 4 0xF0 5 0x3C) (fun t => t.reg 6) = some 0xCC := by decide
-- A12: the destination is the second source
theorem test_xor_alias : after (at0With 0x88AA 4 0x5A 5 0xFF) (fun t => t.reg 5) = some 0xA5 := by decide
-- O1
theorem test_prt : after (at0With 0xAA00 5 43 0 0) (fun t => t.trace) = some [.out 5 43] := by decide
-- I1
theorem test_rdd : after sInput (fun t => (t.reg 3, t.trace, t.input)) = some (44, [.inp 300], []) := by decide
-- I5 and I6: negative inputs
theorem test_rdd_negative : (lowByte (-1), lowByte (-256)) = (255, 0) := by decide
-- I8: no input, no step; STATUS shows pc already advanced, RUNNING
theorem test_rdd_waits : after sNoInput (fun t => t.pc) = none ∧ sNoInput.waitState = sWaiting ∧
    (sNoInput.status.pc, sNoInput.status.ir, sNoInput.status.state) = (2, 0xC600, .running) := by decide
-- B1, P5: taken to 30, outside this image of two bytes, so HALTED_NORMAL
theorem test_blt_taken : after sTaken (fun t => (t.pc, t.state)) = some (30, .haltedNormal) := by decide
-- B8: odd and not taken
theorem test_blt_odd :
    after sOdd (fun t => (t.state, t.err, t.pc, t.ir)) = some (.haltedError, .misalignedBranch, 2, 0xE023) := by decide
-- B5: 255 < 0 is not taken
theorem test_blt_unsigned : after (at0With 0xE020 0 255 1 0) (fun t => t.pc) = some 2 := by decide
-- E1: the empty image starts halted
theorem test_reset_halted : after State.reset (fun t => t.pc) = none := by decide

/-! ### Witnesses: a state or operands that meet the hypotheses of each statement -/

/-- What the statements about one cycle ask of a state and a word. -/
abbrev ready (s : State) (w : Word) : Prop :=
  s.state = .running ∧ s.waiting = none ∧ s.pc.toNat < s.len.toNat ∧ s.fetchWord = .ok w

theorem ready_sLdi : ready sLdi 0x0214 := ⟨rfl, rfl, by decide, rfl⟩
theorem ready_sTaken : ready sTaken 0xE03E := ⟨rfl, rfl, by decide, rfl⟩
theorem ready_sNotTaken : ready sNotTaken 0xE03E := ⟨rfl, rfl, by decide, rfl⟩
theorem ready_sOdd : ready sOdd 0xE023 := ⟨rfl, rfl, by decide, rfl⟩
theorem ready_sSelf : ready sSelf 0xE020 := ⟨rfl, rfl, by decide, rfl⟩
theorem ready_sNoInput : ready sNoInput 0xC600 := ⟨rfl, rfl, by decide, rfl⟩

-- WordDecodesByItsFields: each clause at both ends of its range
theorem witness_WordDecodesByItsFields :
    (0x0000 : Word).toNat / 8192 = 0 ∧ (0x1FFF : Word).toNat / 8192 = 0 ∧
    (0x2000 : Word).toNat / 8192 = 1 ∧ (0x3FFF : Word).toNat / 8192 = 1 ∧
    (0x4000 : Word).toNat / 8192 = 2 ∧ (0x5FFF : Word).toNat / 8192 = 2 ∧
    (0x6000 : Word).toNat / 8192 = 3 ∧ (0x7FFF : Word).toNat / 8192 = 3 ∧
    (0x8000 : Word).toNat / 8192 = 4 ∧ (0x9FFF : Word).toNat / 8192 = 4 ∧
    (0xA000 : Word).toNat / 8192 = 5 ∧ (0xBFFF : Word).toNat / 8192 = 5 ∧
    (0xC000 : Word).toNat / 8192 = 6 ∧ (0xDFFF : Word).toNat / 8192 = 6 ∧
    (0xE000 : Word).toNat / 8192 = 7 ∧ (0xFFFF : Word).toNat / 8192 = 7 := by decide

-- TextLengthsBounded: the largest offset
theorem witness_TextLengthsBounded : 30 < 32 ∧ (listingLine [] 30).length ≤ 19 := by decide

-- ListingShowsEachWholeWord, RegistersAndPcStartAtZero, OddImageEndsInZeroByte, LoadMeetsInv: E3's image
theorem witness_load : ∃ s, loadImage [0x02, 0x02, 0x05] = .next s ∧ ([0x02, 0x02, 0x05] : List Byte).length % 2 = 1 ∧
    ([0x02, 0x02, 0x05] : List Byte).getLast? = some 0x05 ∧
    ([0x02, 0x02, 0x05] : List Byte)[2 * 0]? = some 0x02 ∧ ([0x02, 0x02, 0x05] : List Byte)[2 * 0 + 1]? = some 0x02 :=
  ⟨_, rfl, by decide⟩

-- LoadPlacesTheImage: lengths 0 and 32 are loaded, 33 is refused (E1, E4, E6)
theorem witness_LoadPlacesTheImage : ([] : List Byte).length ≤ 32 ∧ (List.replicate 32 (0 : Byte)).length ≤ 32 ∧
    32 < (List.replicate 33 (0 : Byte)).length := by decide

-- CanonicalMemoriesAreEqualByBytes: two ways to one memory
theorem witness_CanonicalMemories : Memory.wf (Memory.write [] 3 5) ∧
    Memory.wf (Memory.write (Memory.write [] 3 7) 3 5) ∧
    ∀ a, a < 32 → (Memory.write [] 3 5).read a = (Memory.write (Memory.write [] 3 7) 3 5).read a :=
  ⟨by decide, by decide, fun _ _ => rfl⟩

/-- A machine with one word `w` at address 0, its other bytes 0. -/
theorem at0_tail {m : Memory} {u v : Byte} (hm : m = [(0, u), (1, v)] ∨ m = [(0, u)]) (a : Nat) (ha : 2 ≤ a) :
    m.byteAt a = 0 := by
  rcases hm with rfl | rfl <;> simp [Memory.byteAt, show ¬0 = a by omega, show ¬1 = a by omega]

-- StepKeepsInv, RunningMachineNeverStops and TransitionsAreLabelledCycles: a cycle that is silent
theorem witness_inv_running : Inv sLdi ∧ sLdi.state = .running ∧ ∃ t, step sLdi = .next t :=
  ⟨⟨by decide, by decide, at0_tail (u := 0x02) (v := 0x14) (.inl rfl), by decide, by decide, by decide, by decide,
    by decide, by decide, nofun⟩, rfl, ⟨_, rfl⟩⟩

-- WaitAndSupplyKeepInv, RunningMachineNeverStops and TransitionsAreLabelledCycles: an RDD with nothing supplied
theorem witness_inv_noInput : Inv sNoInput ∧ sNoInput.input = [] ∧ step sNoInput = .fault (.waitingForInput 3) :=
  ⟨⟨by decide, by decide, at0_tail (u := 0xC6) (v := 0) (.inr rfl), by decide, by decide, by decide, by decide,
    by decide, by decide, nofun⟩, rfl, rfl⟩

-- RunningMachineNeverStops: an RDD with an integer supplied
theorem witness_inv_input : Inv sInput ∧ sInput.state = .running ∧ sInput.input ≠ [] :=
  ⟨⟨by decide, by decide, at0_tail (u := 0xC6) (v := 0) (.inr rfl), by decide, by decide, by decide, by decide,
    by decide, by decide, nofun⟩, rfl, by decide⟩

-- TransitionsAreLabelledCycles: a cycle of PRT
theorem witness_inv_prt : Inv (at0 0xAA00) ∧ ready (at0 0xAA00) 0xAA00 ∧ decodeWord 0xAA00 = .prt 5 :=
  ⟨⟨by decide, by decide, at0_tail (u := 0xAA) (v := 0) (.inr rfl), by decide, by decide, by decide, by decide,
    by decide, by decide, nofun⟩, ⟨rfl, rfl, by decide, rfl⟩, by decide⟩

-- StepKeepsInv where the machine waits and is supplied an integer
theorem witness_inv_waiting : Inv (sWaiting.supply 300) ∧ ∃ t, step (sWaiting.supply 300) = .next t :=
  ⟨⟨by decide, by decide, at0_tail (u := 0xC6) (v := 0) (.inr rfl), by decide, by decide, fun _ h => (by cases h),
    by decide, by decide, by decide, fun i h => (by cases h; decide)⟩, ⟨_, rfl⟩⟩

-- ReachableStatesAreSound: running after the load of E3's image, waiting in the image C6, HALTED_NORMAL with no image
theorem witness_reachable : (∃ s, ReachableFrom [0x02, 0x02, 0x05] s ∧ s.state = .running ∧ s.waiting = none) ∧
    (∃ s, ReachableFrom [0xC6] s ∧ s.waiting ≠ none) ∧ ∃ s, ReachableFrom [] s ∧ s.state = .haltedNormal :=
  ⟨⟨_, .load _ rfl, rfl, rfl⟩, ⟨_, .wait _ (.load _ rfl), by decide⟩, ⟨_, .load _ rfl, rfl⟩⟩

-- HaltedMachineHasNoStep: both halts
theorem witness_HaltedMachine : State.reset.state = .haltedNormal ∧
    ∃ t, step sOdd = .next t ∧ t.state = .haltedError := ⟨rfl, _, rfl, rfl⟩

-- StepRunsTheDecodedInstruction (first clause), ContinuationTestAfterHandler
theorem witness_cycle : ready sLdi 0x0214 ∧
    ∃ u, exec (decodeWord 0x0214) (sLdi.advance 0x0214) = .next u ∧ u.waiting = none ∧ u.state = .running ∧
      ∃ t, step sLdi = .next t := ⟨ready_sLdi, _, rfl, rfl, rfl, _, rfl⟩

-- StepRunsTheDecodedInstruction, second clause: a handler that waits
theorem witness_cycle_waits : ready sNoInput 0xC600 ∧
    ∃ u, exec (decodeWord 0xC600) { sNoInput with ir := 0xC600, pc := sNoInput.pc + 2 } = .next u ∧
      u.waiting = some 3 := ⟨ready_sNoInput, _, rfl, rfl⟩

-- PcWrittenByFetchAndTakenBranch, first clause: a branch taken, and a cycle that runs none
theorem witness_pc_written : (decodeWord 0xE03E = .blt 0 1 30 ∧ (30 : Addr5).toNat % 2 = 0 ∧
      (sTaken.reg 0).toNat < (sTaken.reg 1).toNat ∧ ∃ t, step sTaken = .next t) ∧
    (∀ i j a, decodeWord 0x0214 = .blt i j a → a.toNat % 2 = 0 → ¬ (sLdi.reg i).toNat < (sLdi.reg j).toNat) :=
  ⟨⟨by decide, by decide, by decide, _, rfl⟩, fun _ _ _ h => nomatch (show Instr.ldi 1 10 = .blt _ _ _ from h)⟩

-- PcWrittenByFetchAndTakenBranch, second clause: waiting, and running outside the image
theorem witness_pc_kept : ((sWaiting.supply 300).waiting ≠ none ∧ ∃ t, step (sWaiting.supply 300) = .next t) ∧
    (({ sLdi with pc := 4 } : State).len.toNat ≤ ({ sLdi with pc := 4 } : State).pc.toNat ∧
      ∃ t, step { sLdi with pc := 4 } = .next t) := ⟨⟨by decide, _, rfl⟩, by decide, _, rfl⟩

-- PcWrittenByFetchAndTakenBranch, third clause: a branch that writes pc, an instruction that does not
theorem witness_pc_unread : (∃ t, exec (.blt 0 1 30) sTaken = .next t ∧ t.pc ≠ sTaken.pc) ∧
    ∃ t, exec (.ldi 1 10) sLdi = .next t ∧ t.pc = sLdi.pc := ⟨⟨_, rfl, by decide⟩, _, rfl, rfl⟩

-- FetchIsBigEndian and MemoryIsConstant
theorem witness_fetch : sLdi.waiting = none ∧ sLdi.pc.toNat < sLdi.len.toNat ∧ sLdi.pc.toNat + 1 < 32 ∧
    ∃ t, step sLdi = .next t := ⟨rfl, by decide, by decide, _, rfl⟩

-- LdiWritesItsImmediate to XorWritesBitwiseXor, PrtEmitsItsRegister: another register than the destination
theorem witness_other_register : (2 : RegIdx) ≠ 1 := by decide

-- RddTakesOneInteger
theorem witness_RddTakesOneInteger : sInput.input = 300 :: [] := rfl

-- RddWithoutInputWaits
theorem witness_RddWithoutInputWaits : ready sNoInput 0xC600 ∧ decodeWord 0xC600 = .rdd 3 ∧ sNoInput.input = [] :=
  ⟨ready_sNoInput, by decide, rfl⟩

-- WaitWithoutInputHangs, SuppliedIntegerEndsTheWait, TransitionsAreLabelledCycles (third clause)
theorem witness_waiting : sWaiting.state = .running ∧ sWaiting.waiting = some 3 ∧ sWaiting.input = [] ∧
    step sWaiting = .fault (.waitingForInput 3) := ⟨rfl, rfl, rfl, rfl⟩

-- TimeOfSupplyIsNotObservable
theorem witness_TimeOfSupply : sNoInput.waiting = none ∧ step sNoInput = .fault (.waitingForInput 3) := ⟨rfl, rfl⟩

-- BranchPostconditions, FailureRecordsAndRollsNothingBack: taken, not taken, odd
theorem witness_branches :
    (ready sTaken 0xE03E ∧ decodeWord 0xE03E = .blt 0 1 30 ∧ (30 : Addr5).toNat % 2 = 0 ∧
      (sTaken.reg 0).toNat < (sTaken.reg 1).toNat) ∧
    (ready sNotTaken 0xE03E ∧ ¬ (sNotTaken.reg 0).toNat < (sNotTaken.reg 1).toNat) ∧
    (ready sOdd 0xE023 ∧ decodeWord 0xE023 = .blt 0 1 3 ∧ (3 : Addr5).toNat % 2 = 1) :=
  ⟨⟨ready_sTaken, by decide, by decide, by decide⟩, ⟨ready_sNotTaken, by decide⟩, ready_sOdd, by decide, by decide⟩

-- BranchComparesUnsigned: the ends of the target's range, and equal values, which are not taken
theorem witness_BranchComparesUnsigned : (0 : Addr5).toNat % 2 = 0 ∧ (30 : Addr5).toNat % 2 = 0 ∧
    (1 : Addr5).toNat % 2 = 1 ∧ (31 : Addr5).toNat % 2 = 1 ∧ (sTaken.reg 0).toNat < (sTaken.reg 1).toNat ∧
    (sLdi.reg 1).toNat ≤ (sLdi.reg 0).toNat := by decide

-- OnlyAnOddBranchFails, ErrWrittenOnlyOnFailure: a step that changes err, and a step that does not fail
theorem witness_failure : (∃ t, step sOdd = .next t ∧ t.err ≠ sOdd.err) ∧
    ∃ t, step sTaken = .next t ∧ t.state ≠ .haltedError := ⟨⟨_, rfl, by decide⟩, _, rfl, by decide⟩

-- UnknownOpcodeIsUnreachable, second clause: a state no run reaches
theorem witness_UnknownOpcode : ∃ t, exec (.prt 0) { sLdi with err := .unknownOpcode } = .next t ∧
    t.err = .unknownOpcode := ⟨_, rfl, rfl⟩

-- InstructionFrame: a register that is no destination, and an instruction of each group
theorem witness_InstructionFrame : destination (.add 1 2 3) ≠ some 2 ∧ (Instr.prt 1).opcode ≠ .blt ∧
    (Instr.prt 1).opcode ≠ .rdd ∧ (Instr.blt 1 2 3).opcode ≠ .rdd ∧ (Instr.blt 1 2 3).opcode ≠ .prt ∧
    ∃ t, exec (.add 1 2 3) sLdi = .next t :=
  ⟨by decide, by decide, by decide, by decide, by decide, _, rfl⟩

-- OnlyRddSeesTheInput
theorem witness_OnlyRddSeesTheInput : (Instr.ldi 1 10).opcode ≠ .rdd := by decide

-- CycleEmitsItsLabel, InputsConsumedInOrder: an RDD that takes an integer, at once or after a wait (witness_pc_kept)
theorem witness_label : sInput.waiting = none ∧ sInput.pc.toNat < sInput.len.toNat ∧ sInput.fetchWord = .ok 0xC600 ∧
    ∃ t, step sInput = .next t ∧ t.trace = [.inp 300] := ⟨rfl, by decide, rfl, _, rfl, rfl⟩

-- TransitionsAreLabelledCycles: a halted state, and the one transition of a waiting machine for each integer
theorem witness_transitions : State.reset.state ≠ .running ∧ ∃ t, Transition sNoInput (some (.inp 300)) t :=
  ⟨by decide, _, .input sNoInput _ 3 300 rfl rfl⟩

-- SelfBranchNeverEnds
theorem witness_SelfBranch : ready sSelf 0xE020 ∧ decodeWord 0xE020 = .blt 0 1 0 ∧
    (0 : Addr5).toNat = sSelf.pc.toNat ∧ (0 : Addr5).toNat % 2 = 0 ∧ (sSelf.reg 0).toNat < (sSelf.reg 1).toNat :=
  ⟨ready_sSelf, by decide, by decide, by decide, by decide⟩

end Sys2Proof.Tests
end

section
/-! Who writes `pc`, and that no instruction reads it (10_state.md R25). -/

namespace Sys2Proof.Machine

/-- A handler keeps `pc`, unless it is a BLT with an even target that is taken (R25, R171). -/
theorem exec_pc {i : Instr} {s t : State} (h : exec i s = .next t) :
    t.pc = s.pc ∨ ∃ r q a, i = .blt r q a ∧ a.toNat % 2 = 0 ∧ (s.reg r).toNat < (s.reg q).toNat ∧
      t.pc = branchTarget a := by
  obtain ⟨k, v, -, -, -, -, rfl⟩ | ⟨r, -, rfl⟩ | ⟨r, -, rfl⟩ |
    ⟨r, q, a, hi, ⟨-, rfl⟩ | ⟨ha, hlt, rfl⟩ | ⟨-, -, rfl⟩⟩ := exec_cases h
  · exact .inl rfl
  · exact .inl rfl
  · exact .inl (s.awaitInput_pc r)
  · exact .inl rfl
  · exact .inr ⟨r, q, a, hi, ha, hlt, rfl⟩
  · exact .inl rfl

/-- Looking at the IN channel neither reads nor writes `pc`. -/
theorem State.awaitInput_jump (s : State) (p : PcWord) (i : RegIdx) :
    (s.jump p).awaitInput i = (s.awaitInput i).jump p := by
  obtain ⟨h, e⟩ | ⟨n, rest, h, e⟩ := awaitInput_cases s i
  · rw [e, State.awaitInput_nil (s.jump p) i h]; rfl
  · rw [e, State.awaitInput_cons (s.jump p) i h]; rfl

/-- An instruction run with another `pc` either keeps both values of `pc` and does the rest alike, or, a taken BLT,
gives the very same state: none reads `pc` (R25). -/
theorem exec_jump (i : Instr) (s : State) (p : PcWord) :
    (∃ t, exec i s = .next t ∧ t.pc = s.pc ∧ exec i (s.jump p) = .next (t.jump p)) ∨
    (∃ t, exec i s = .next t ∧ exec i (s.jump p) = .next t) := by
  cases i with
  | ldi r v => exact .inl ⟨_, exec_ldi r v s, rfl, rfl⟩
  | add r q k => exact .inl ⟨_, exec_add r q k s, rfl, rfl⟩
  | and r q k => exact .inl ⟨_, exec_and r q k s, rfl, rfl⟩
  | or r q k => exact .inl ⟨_, exec_or r q k s, rfl, rfl⟩
  | xor r q k => exact .inl ⟨_, exec_xor r q k s, rfl, rfl⟩
  | prt r => exact .inl ⟨_, exec_prt r s, rfl, rfl⟩
  | rdd r => exact .inl ⟨_, exec_rdd r s, s.awaitInput_pc r, by rw [exec_rdd, State.awaitInput_jump]⟩
  | blt r q a =>
    rcases Nat.mod_two_eq_zero_or_one a.toNat with ha | ha
    · by_cases hlt : (s.reg r).toNat < (s.reg q).toNat
      · exact .inr ⟨_, exec_blt_taken ha hlt, exec_blt_taken (s := s.jump p) ha hlt⟩
      · exact .inl ⟨_, exec_blt_not_taken ha hlt, rfl, exec_blt_not_taken (s := s.jump p) ha hlt⟩
    · exact .inl ⟨_, exec_blt_odd s ha, rfl, exec_blt_odd (s.jump p) ha⟩

/-- The state after a whole cycle is its handler's, which has returned, after the continuation test. -/
theorem step_next_of_ready {s t : State} {w : Word} (hr : s.state = .running) (hw : s.waiting = none)
    (hin : s.pc.toNat < s.len.toNat) (hf : s.fetchWord = .ok w) (h : step s = .next t) :
    ∃ u, exec (decodeWord w) (s.advance w) = .next u ∧ u.waiting = none ∧ t = u.continueRun := by
  rw [step_of_ready hr hw hin hf] at h
  exact afterHandler_next.mp h

/-- A step that fetches nothing, the end of a wait or the continuation test, keeps `pc`. -/
theorem step_pc_of_no_fetch {s t : State} (hs : s.waiting ≠ none ∨ s.len.toNat ≤ s.pc.toNat)
    (h : step s = .next t) : t.pc = s.pc := by
  obtain ⟨-, ⟨i, -, -, rfl⟩ | ⟨-, -, rfl⟩ | ⟨hw, hin, -⟩⟩ := step_cases h
  · rw [State.continueRun_pc, State.awaitInput_pc]
  · exact s.continueRun_pc
  · have hlt : s.pc.toNat < s.len.toNat := (insideImage_iff s).mp hin
    exact absurd hs (by simp [hw, hlt])

/-- Settles O24: the cycle's `pc` is its handler's, and a handler keeps the fetch's `pc + 2` unless a BLT is taken. -/
theorem pcWrittenByFetchAndTakenBranch : Obligations.PcWrittenByFetchAndTakenBranch := by
  refine ⟨fun s t w hr hw hin hf h => ?_, fun s t hs h => step_pc_of_no_fetch hs h, fun i s p => ?_⟩
  · obtain ⟨u, hu, -, rfl⟩ := step_next_of_ready hr hw hin hf h
    rw [State.continueRun_pc]
    refine ⟨fun i j a hd ha hlt => ?_, fun hnot => ?_⟩
    · rw [hd, exec_blt_taken (s := s.advance w) ha hlt] at hu
      cases hu
      exact branchTarget_toNat a
    · obtain hpc | ⟨i, j, a, hd, ha, hlt, -⟩ := exec_pc hu
      · exact hpc
      · exact absurd hlt (hnot i j a hd ha)
  · obtain ⟨t, ht, hpc, hu⟩ | ⟨t, ht, hu⟩ := exec_jump i s p
    · exact ⟨t, t.jump p, ht, hu, rfl, fun _ => .inl rfl, fun hne => absurd hpc hne⟩
    · exact ⟨t, t, ht, hu, rfl, fun _ => .inr rfl, fun _ => rfl⟩

end Sys2Proof.Machine
end

section
/-! A word is decoded by its opcode, a quotient, and its format's fields, quotients cut to their width (30_encoding.md
R71 to R76). -/

namespace Sys2Proof

theorem riField_eq_ofNat (w : Word) : riField w = BitVec.ofNat 4 (w.toNat / 512) :=
  BitVec.eq_of_toNat_eq (riField_toNat w)

theorem rjField_eq_ofNat (w : Word) : rjField w = BitVec.ofNat 4 (w.toNat / 32) :=
  BitVec.eq_of_toNat_eq (rjField_toNat w)

theorem rkField_eq_ofNat (w : Word) : rkField w = BitVec.ofNat 4 (w.toNat / 2) :=
  BitVec.eq_of_toNat_eq (rkField_toNat w)

theorem imm8Field_eq_ofNat (w : Word) : imm8Field w = BitVec.ofNat 8 (w.toNat / 2) :=
  BitVec.eq_of_toNat_eq (imm8Field_toNat w)

theorem addr5Field_eq_ofNat (w : Word) : addr5Field w = BitVec.ofNat 5 w.toNat :=
  BitVec.eq_of_toNat_eq (addr5Field_toNat w)

/-- The opcode a word selects is the one whose bits are the quotient of the word by 8192 (R71, R79). -/
theorem ofBits_opcodeField_eq {w : Word} {o : Opcode} (h : w.toNat / 8192 = o.bits.toNat) :
    Opcode.ofBits (opcodeField w) = o := by
  have hbits : opcodeField w = o.bits := BitVec.eq_of_toNat_eq ((opcodeField_toNat w).trans h)
  rw [hbits, ofBits_bits]

/-- The instruction of opcode `o` whose operands are the fields of `o`'s format in the number `n` (R73 to R76). -/
def Opcode.instrOfNat (o : Opcode) (n : Nat) : Instr :=
  let i : RegIdx := BitVec.ofNat 4 (n / 512)
  let j : RegIdx := BitVec.ofNat 4 (n / 32)
  let k : RegIdx := BitVec.ofNat 4 (n / 2)
  match o with
  | .ldi => .ldi i (BitVec.ofNat 8 (n / 2))
  | .add => .add i j k
  | .and => .and i j k
  | .or => .or i j k
  | .xor => .xor i j k
  | .prt => .prt i
  | .rdd => .rdd i
  | .blt => .blt i j (BitVec.ofNat 5 n)

/-- Each opcode's word decodes to the instruction that its format's quotients give. -/
theorem decodeWord_eq_instrOfNat {w : Word} (o : Opcode) (h : w.toNat / 8192 = o.bits.toNat) :
    decodeWord w = o.instrOfNat w.toNat := by
  rw [decodeWord, ofBits_opcodeField_eq h]
  cases o <;>
    simp only [Opcode.instrOfNat, riField_eq_ofNat, rjField_eq_ofNat, rkField_eq_ofNat, imm8Field_eq_ofNat,
      addr5Field_eq_ofNat]

/-- Settles O3: one clause for each opcode, and a word is below 65536, so its opcode is below 8. -/
theorem wordDecodesByItsFields : Obligations.WordDecodesByItsFields := fun w =>
  ⟨decodeWord_eq_instrOfNat .ldi, decodeWord_eq_instrOfNat .add, decodeWord_eq_instrOfNat .and,
    decodeWord_eq_instrOfNat .or, decodeWord_eq_instrOfNat .xor, decodeWord_eq_instrOfNat .prt,
    decodeWord_eq_instrOfNat .rdd, decodeWord_eq_instrOfNat .blt, Nat.div_lt_of_lt_mul w.isLt⟩

end Sys2Proof
end

section
/-! What the continuation test does to a handler's state (40_engine.md R105). -/

namespace Sys2Proof.Machine

/-- The continuation test writes nothing but the engine state. -/
theorem State.continueRun_eq (s : State) : s.continueRun = { s with state := s.continueRun.state } := by
  unfold State.continueRun; split <;> rfl

/-- Inside the image the engine keeps its state, RUNNING or failed. -/
theorem State.continueRun_state_of_inside {s : State} (hin : s.pc.toNat < s.len.toNat) :
    s.continueRun.state = s.state := by
  rw [State.continueRun_state, if_neg fun h => Nat.not_le.mpr hin h.2]

/-- A running engine that has left the image halts normally. -/
theorem State.continueRun_state_of_outside {s : State} (hr : s.state = .running) (hout : s.len.toNat ≤ s.pc.toNat) :
    s.continueRun.state = .haltedNormal := by
  rw [State.continueRun_state, if_pos ⟨hr, hout⟩]

/-- Settles O22: the step gives the handler's state after the continuation test, which keeps that state's `pc` and `len`,
so what the test read is what the next state shows. -/
theorem continuationTestAfterHandler : Obligations.ContinuationTestAfterHandler := by
  intro s u w hr hw hin hf he huw hur
  refine ⟨u.continueRun, step_of_cycle hr hw hin hf he huw, u.continueRun_eq, ?_, ?_⟩ <;>
    rw [State.continueRun_pc, State.continueRun_len]
  · exact fun hlt => (State.continueRun_state_of_inside hlt).trans hur
  · exact State.continueRun_state_of_outside hur

/-- `BLT R0 R1 0` at address 0 with 0 < 1: its handler takes `pc` back inside the image, so a cycle that meets the
hypotheses of `ContinuationTestAfterHandler` leaves the engine RUNNING. -/
theorem continuationTest_running_witness :
    ∃ t, step ((State.reset.withFetchWord 16 0xE020).writeReg 1 1) = .next t ∧ t.state = .running := by
  obtain ⟨t, hstep, ht, hrun, -⟩ := continuationTestAfterHandler
    ((State.reset.withFetchWord 16 0xE020).writeReg 1 1) _ 0xE020 rfl rfl (by decide) rfl rfl rfl rfl
  exact ⟨t, hstep, hrun (by rw [ht]; exact Nat.two_pos)⟩

end Sys2Proof.Machine
end

section
/-! LDI: the write of one register, the words of its format with either unused bit, and its text (41_ldi.md R120). -/

namespace Sys2Proof.Machine

/-- What a register write does, all of it: the register named holds the value, every other one is as before, and nothing
but the registers differs. -/
theorem State.writeReg_effect (s : State) (i : RegIdx) (v : Byte) :
    (s.writeReg i v).reg i = v ∧ (∀ r, r ≠ i → (s.writeReg i v).reg r = s.reg r) ∧
      s.writeReg i v = { s with x := (s.writeReg i v).x } :=
  ⟨s.writeReg_reg_same i v, fun _ h => s.writeReg_reg_other v h, rfl⟩

/-- Every word of LDI's format decodes to it: bit 0 falls out of each field's quotient (R81). -/
theorem decodeWord_ldi_layout (i : RegIdx) (imm : Byte) (u : BitVec 1) :
    decodeWord ((0b000 : BitVec 3) ++ i ++ imm ++ u) = .ldi i imm := by
  have hsum : ((0b000 : BitVec 3) ++ i ++ imm ++ u).toNat = i.toNat * 512 + imm.toNat * 2 + u.toNat := by
    have hzero : (0b000 : BitVec 3).toNat = 0 := rfl
    simp only [toNat_append_eq, hzero]; omega
  have hop : ((0b000 : BitVec 3) ++ i ++ imm ++ u).toNat / 8192 = Opcode.ldi.bits.toNat := by
    rw [hsum]; exact Nat.div_eq_of_lt (by omega)
  rw [decodeWord_eq_instrOfNat .ldi hop, hsum, Opcode.instrOfNat, Instr.ldi.injEq]
  constructor <;> apply BitVec.eq_of_toNat_eq <;> rw [BitVec.toNat_ofNat] <;> omega

/-- LDI is written as its mnemonic, its register and its immediate in decimal (R83). -/
theorem instrText_ldi (i : RegIdx) (imm : Byte) :
    instrText (.ldi i imm) = ['L', 'D', 'I', ' ', 'R'] ++ decimal i.toNat ++ [' '] ++ decimal imm.toNat := by
  simp [instrText, lineText, Instr.toLine, opcodeName, operandText]

/-- Settles O25: LDI is a register write of its immediate. -/
theorem ldiWritesItsImmediate : Obligations.LdiWritesItsImmediate := fun i imm s =>
  ⟨⟨s.writeReg i imm, exec_ldi i imm s, s.writeReg_effect i imm⟩, decodeWord_ldi_layout i imm, instrText_ldi i imm⟩

end Sys2Proof.Machine
end

section
/-! ADD, AND, OR and XOR: the words of the format they share with either unused bit, its text, and what each writes
(42_alu.md R130 to R134). -/

namespace Sys2Proof.Machine

/-- Every word of the three-register format decodes to the instruction of its opcode: bit 0 falls out of each field's
quotient (R74, R81). `mk` is the instruction whose operands `o` takes from Ri, Rj and Rk. -/
theorem decodeWord_threeRegister_layout {o : Opcode} {mk : RegIdx → RegIdx → RegIdx → Instr}
    (hmk : ∀ n, o.instrOfNat n = mk (BitVec.ofNat 4 (n / 512)) (BitVec.ofNat 4 (n / 32)) (BitVec.ofNat 4 (n / 2)))
    (i j k : RegIdx) (u : BitVec 1) : decodeWord (o.bits ++ i ++ j ++ k ++ u) = mk i j k := by
  have hsum : (o.bits ++ i ++ j ++ k ++ u).toNat =
      o.bits.toNat * 8192 + i.toNat * 512 + j.toNat * 32 + k.toNat * 2 + u.toNat := by
    simp only [toNat_append_eq]; omega
  have hop : (o.bits ++ i ++ j ++ k ++ u).toNat / 8192 = o.bits.toNat := by omega
  rw [decodeWord_eq_instrOfNat o hop, hmk, hsum]
  congr 1 <;> apply BitVec.eq_of_toNat_eq <;> rw [BitVec.toNat_ofNat] <;> omega

/-- A line of three registers is written as its mnemonic and the registers in its order (R83). -/
theorem lineText_threeRegister (o : Opcode) (a b c : Nat) :
    lineText ⟨o, [.reg a, .reg b, .reg c]⟩ =
      opcodeName o ++ [' ', 'R'] ++ decimal a ++ [' ', 'R'] ++ decimal b ++ [' ', 'R'] ++ decimal c := by
  simp [lineText, operandText]

/-- Settles O26: ADD is a register write of the sum, whose number is the sum of the old values modulo 256. -/
theorem addWritesTheSumModulo256 : Obligations.AddWritesTheSumModulo256 := fun i j k s =>
  have ⟨hk, hother, hframe⟩ := s.writeReg_effect k (BitVec.ofNat 8 ((s.reg i).toNat + (s.reg j).toNat))
  ⟨⟨_, exec_add i j k s, by rw [hk, BitVec.toNat_ofNat], hother, hframe⟩,
    decodeWord_threeRegister_layout (o := .add) (fun _ => rfl) i j k, lineText_threeRegister .add ..⟩

/-- Settles O27: AND is a register write of the bitwise and of the old values. -/
theorem andWritesBitwiseAnd : Obligations.AndWritesBitwiseAnd := fun i j k s =>
  have ⟨hk, hother, hframe⟩ := s.writeReg_effect k (s.reg i &&& s.reg j)
  ⟨⟨_, exec_and i j k s, fun _ => by rw [hk, BitVec.getLsbD_and], hother, hframe⟩,
    decodeWord_threeRegister_layout (o := .and) (fun _ => rfl) i j k, lineText_threeRegister .and ..⟩

/-- Settles O28: OR is a register write of the bitwise inclusive or of the old values. -/
theorem orWritesBitwiseOr : Obligations.OrWritesBitwiseOr := fun i j k s =>
  have ⟨hk, hother, hframe⟩ := s.writeReg_effect k (s.reg i ||| s.reg j)
  ⟨⟨_, exec_or i j k s, fun _ => by rw [hk, BitVec.getLsbD_or], hother, hframe⟩,
    decodeWord_threeRegister_layout (o := .or) (fun _ => rfl) i j k, lineText_threeRegister .or ..⟩

/-- Settles O29: XOR is a register write of the bitwise exclusive or of the old values. -/
theorem xorWritesBitwiseXor : Obligations.XorWritesBitwiseXor := fun i j k s =>
  have ⟨hk, hother, hframe⟩ := s.writeReg_effect k (s.reg i ^^^ s.reg j)
  ⟨⟨_, exec_xor i j k s, fun _ => by rw [hk, BitVec.getLsbD_xor], hother, hframe⟩,
    decodeWord_threeRegister_layout (o := .xor) (fun _ => rfl) i j k, lineText_threeRegister .xor ..⟩

end Sys2Proof.Machine
end

section
/-! BLT: what its handler answers, and what its whole cycle leaves (44_branch.md R170 to R173). -/

namespace Sys2Proof.Machine

/-- Settles O37: BLT is a jump to its target if Ri is below Rj, and nothing otherwise; an odd target is a failure, which
does not write `pc`. -/
theorem branchComparesUnsigned : Obligations.BranchComparesUnsigned := fun _ _ a s =>
  ⟨fun ha hlt => ⟨_, exec_blt_taken ha hlt, branchTarget_toNat a, rfl⟩,
    fun ha hle => exec_blt_not_taken ha (Nat.not_lt.mpr hle),
    fun ha => ⟨_, exec_blt_odd s ha, rfl, rfl⟩⟩

/-- Whatever its outcome, BLT returns from its handler and keeps every register and the wait. -/
theorem exec_blt_keeps_reg_waiting (i j : RegIdx) (a : Addr5) (s : State) :
    ∃ u, exec (.blt i j a) s = .next u ∧ (∀ r, u.reg r = s.reg r) ∧ u.waiting = s.waiting := by
  refine ⟨_, exec_blt i j a s, ?_⟩
  split
  · exact ⟨s.fail_reg _, s.fail_waiting _⟩
  · split
    · exact ⟨s.jump_reg _, s.jump_waiting _⟩
    · exact ⟨fun _ => rfl, rfl⟩

/-- The continuation test does nothing to an engine that has left RUNNING. -/
theorem State.continueRun_state_of_not_running {s : State} (h : s.state ≠ .running) :
    s.continueRun.state = s.state := by
  rw [State.continueRun_state, if_neg fun hrun => h hrun.1]

/-- The continuation test is no failure: it takes a running engine to RUNNING or HALTED_NORMAL (R105). -/
theorem State.continueRun_state_ne_haltedError {s : State} (h : s.state = .running) :
    s.continueRun.state ≠ .haltedError := by
  rw [State.continueRun_state, h]
  split <;> decide

/-- Settles O36: the cycle's next state is the state of BLT's handler after the continuation test, which writes neither a
register nor `pc`. -/
theorem branchPostconditions : Obligations.BranchPostconditions := by
  intro s w i j a hr hw hin hf hd
  obtain ⟨u, hu, hreg, huw⟩ := exec_blt_keeps_reg_waiting i j a (s.advance w)
  have hstep : step s = .next u.continueRun := step_of_cycle hr hw hin hf (by rwa [hd]) (huw.trans hw)
  refine ⟨u.continueRun, hstep, fun r => (u.continueRun_reg r).trans (hreg r), ?_, ?_, ?_⟩
  · intro ha hlt
    rw [exec_blt_taken (s := s.advance w) ha hlt] at hu
    cases hu
    exact ⟨by rw [State.continueRun_pc, State.jump_pc, branchTarget_toNat], State.continueRun_state_ne_haltedError hr⟩
  · intro ha hge
    rw [exec_blt_not_taken (s := s.advance w) ha hge] at hu
    cases hu
    exact ⟨State.continueRun_pc _, State.continueRun_state_ne_haltedError hr⟩
  · intro ha
    rw [exec_blt_odd (s.advance w) ha] at hu
    cases hu
    exact ⟨State.continueRun_state_of_not_running nofun, State.continueRun_err _⟩

end Sys2Proof.Machine
end

section
/-! What every handler and every step leaves unchanged: the loaded image (20_memory.md R61, 10_state.md R30). -/

namespace Sys2Proof.Machine

/-- Every instruction answers a next state: none faults and none is refused. -/
theorem exec_total (i : Instr) (s : State) : ∃ t, exec i s = .next t := by
  cases i with
  | ldi r v => exact ⟨_, exec_ldi r v s⟩
  | add r q k => exact ⟨_, exec_add r q k s⟩
  | and r q k => exact ⟨_, exec_and r q k s⟩
  | or r q k => exact ⟨_, exec_or r q k s⟩
  | xor r q k => exact ⟨_, exec_xor r q k s⟩
  | prt r => exact ⟨_, exec_prt r s⟩
  | rdd r => exact ⟨_, exec_rdd r s⟩
  | blt r q a => exact ⟨_, exec_blt r q a s⟩

/-- No handler writes memory, the loaded length or `ir`. -/
theorem exec_keeps_mem_len_ir {i : Instr} {s t : State} (h : exec i s = .next t) :
    t.mem = s.mem ∧ t.len = s.len ∧ t.ir = s.ir := by
  obtain ⟨k, v, -, -, -, -, rfl⟩ | ⟨r, -, rfl⟩ | ⟨r, -, rfl⟩ |
    ⟨r, q, a, -, ⟨-, rfl⟩ | ⟨-, -, rfl⟩ | ⟨-, -, rfl⟩⟩ := exec_cases h
  · exact ⟨rfl, rfl, rfl⟩
  · exact ⟨rfl, rfl, rfl⟩
  · exact ⟨s.awaitInput_mem r, s.awaitInput_len r, s.awaitInput_ir r⟩
  · exact ⟨rfl, rfl, rfl⟩
  · exact ⟨rfl, rfl, rfl⟩
  · exact ⟨rfl, rfl, rfl⟩

/-- No step writes memory or the loaded length. -/
theorem step_keeps_mem_len {s t : State} (h : step s = .next t) : t.mem = s.mem ∧ t.len = s.len := by
  obtain ⟨-, ⟨i, -, -, rfl⟩ | ⟨-, -, rfl⟩ | ⟨-, -, w, u, -, hu, -, rfl⟩⟩ := step_cases h
  · simp
  · simp
  · obtain ⟨hmem, hlen, -⟩ := exec_keeps_mem_len_ir hu
    simp [hmem, hlen]

/-- Settles O44: reads follow the memory, which no step writes. -/
theorem memoryIsConstant : Obligations.MemoryIsConstant := fun _ _ h =>
  have ⟨hmem, hlen⟩ := step_keeps_mem_len h
  ⟨hmem, fun _ => by rw [hmem], hlen⟩

end Sys2Proof.Machine
end

section
/-! The invariant: every step keeps it, and so do a wait and a supplied integer (40_engine.md R111). -/

namespace Sys2Proof.Machine

/-- The part of the invariant that holds inside a cycle, from the fetch to the continuation test (R102): the engine is
RUNNING without a failure or has just failed, and whether `pc` is inside the image is not yet tested. -/
structure HandlerInv (s : State) : Prop where
  memWf : Memory.wf s.mem
  lenLe : s.len.toNat ≤ Config.maxImage
  tailZero : ∀ a, s.len.toNat ≤ a → s.mem.byteAt a = 0
  pcEven : s.pc.toNat % 2 = 0
  pcLe : s.pc.toNat ≤ Config.memSize
  runningOrFailed : s.state = .running ∧ s.err = .none ∨ s.state = .haltedError ∧ s.err = .misalignedBranch

theorem Inv.handlerInv {s : State} (h : Inv s) (hr : s.state = .running) : HandlerInv s :=
  { h with runningOrFailed := .inl ⟨hr, h.errNone (by rw [hr]; decide)⟩ }

/-- Below `len` an even `pc` can advance by 2 and stay within 32 (R27). -/
theorem HandlerInv.advance {s : State} (h : HandlerInv s) (hin : s.pc.toNat < s.len.toNat) (w : Word) :
    HandlerInv (s.advance w) := by
  have heven := h.pcEven
  have hlen : s.len.toNat ≤ 32 := h.lenLe
  have hpc : (s.advance w).pc.toNat = s.pc.toNat + 2 := by
    rw [State.advance_pc, BitVec.toNat_add]
    exact Nat.mod_eq_of_lt (show s.pc.toNat + 2 < 64 by omega)
  exact { h with
    pcEven := by omega
    pcLe := show (s.advance w).pc.toNat ≤ 32 by omega }

theorem HandlerInv.awaitInput {s : State} (h : HandlerInv s) (i : RegIdx) : HandlerInv (s.awaitInput i) := by
  obtain ⟨-, e⟩ | ⟨n, rest, -, e⟩ := awaitInput_cases s i <;> rw [e] <;> exact { h with }

/-- Every handler keeps it: a failure records its cause, and a branch taken goes to an even address below 32. -/
theorem HandlerInv.exec {i : Instr} {s t : State} (h : HandlerInv s) (he : exec i s = .next t) : HandlerInv t := by
  obtain ⟨k, v, -, -, -, -, rfl⟩ | ⟨r, -, rfl⟩ | ⟨r, -, rfl⟩ |
    ⟨r, q, a, -, ⟨-, rfl⟩ | ⟨ha, -, rfl⟩ | ⟨-, -, rfl⟩⟩ := exec_cases he
  · exact { h with }
  · exact { h with }
  · exact h.awaitInput r
  · exact { h with runningOrFailed := .inr ⟨rfl, rfl⟩ }
  · exact { h with
      pcEven := by rw [State.jump_pc, branchTarget_toNat, ha]
      pcLe := by rw [State.jump_pc, branchTarget_toNat]; exact a.isLt.le }
  · exact h

/-- The continuation test makes it the invariant, once the handler has returned. -/
theorem HandlerInv.continueRun {s : State} (h : HandlerInv s) (hw : s.waiting = none) : Inv s.continueRun where
  memWf := by simpa using h.memWf
  lenLe := by simpa using h.lenLe
  tailZero := by simpa using h.tailZero
  pcEven := by simpa using h.pcEven
  pcLe := by simpa using h.pcLe
  fetchInside hrun _ := by
    rw [State.continueRun_state] at hrun
    split at hrun
    · cases hrun
    · next hc => simpa [hrun] using hc
  normalOutside hn := by
    rw [State.continueRun_state] at hn
    split at hn
    · next hc => simpa using hc.2
    · obtain ⟨hs, -⟩ | ⟨hs, -⟩ := h.runningOrFailed <;> simp [hs] at hn
  errNone hne := by
    obtain ⟨-, he⟩ | ⟨hs, -⟩ := h.runningOrFailed
    · simpa using he
    · exact absurd ((State.continueRun_state_of_not_running (by simp [hs])).trans hs) hne
  errMisaligned hs := by
    obtain ⟨hr, -⟩ | ⟨-, he⟩ := h.runningOrFailed
    · exact absurd hs (State.continueRun_state_ne_haltedError hr)
    · simpa using he
  waitingRdd i hi := by simp [hw] at hi

/-- Settles O17: whatever a step does, it ends in the continuation test of a handler that has returned. -/
theorem stepKeepsInv : Obligations.StepKeepsInv := by
  intro s t h hstep
  obtain ⟨hr, ⟨i, -, hq, rfl⟩ | ⟨hw, hout, -⟩ | ⟨-, hin, w, u, -, hu, huw, rfl⟩⟩ := step_cases hstep
  · exact ((h.handlerInv hr).awaitInput i).continueRun ((awaitInput_waiting_eq_none s i).mpr hq)
  · have hlt := h.fetchInside hr hw
    exact absurd hlt (Nat.not_lt.mpr ((insideImage_eq_false_iff s).mp hout))
  · exact (((h.handlerInv hr).advance ((insideImage_iff s).mp hin) w).exec hu).continueRun huw

theorem Inv.supply {s : State} (h : Inv s) (n : Int) : Inv (s.supply n) := { h with }

/-- The middle of an RDD that waits is the state after its fetch, which waits for that RDD's register. -/
theorem Inv.waitState {s : State} (h : Inv s) : Inv s.waitState := by
  obtain e | ⟨w, i, hr, -, hin, -, hd, -, e⟩ := waitState_cases s
  · rwa [e]
  · rw [e]
    exact { (h.handlerInv hr).advance hin w with
      fetchInside := nofun
      normalOutside := fun hn => nomatch hr.symm.trans hn
      errNone := h.errNone
      errMisaligned := h.errMisaligned
      waitingRdd := fun k hk => by cases hk; exact ⟨hr, hd⟩ }

/-- Settles O50: a wait is the middle of a cycle, and a supply touches only the IN channel. -/
theorem waitAndSupplyKeepInv : Obligations.WaitAndSupplyKeepInv := fun _ n h => ⟨h.waitState, h.supply n⟩

end Sys2Proof.Machine
end

section
/-! Encoding: the words of every format, with any unused bits, and the words of one instruction (30_encoding.md R79 to
R82). -/

namespace Sys2Proof

/-- Every word of PRT's and RDD's format decodes to the instruction of its opcode: bits 8:0 fall out of the quotient
(R75, R81). `mk` is the instruction whose operand `o` takes from Ri. -/
theorem decodeWord_oneRegister_layout {o : Opcode} {mk : RegIdx → Instr}
    (hmk : ∀ n, o.instrOfNat n = mk (BitVec.ofNat 4 (n / 512))) (i : RegIdx) (u : BitVec 9) :
    decodeWord (o.bits ++ i ++ u) = mk i := by
  have hsum : (o.bits ++ i ++ u).toNat = o.bits.toNat * 8192 + i.toNat * 512 + u.toNat := by
    simp only [toNat_append_eq]; omega
  have hop : (o.bits ++ i ++ u).toNat / 8192 = o.bits.toNat := by omega
  rw [decodeWord_eq_instrOfNat o hop, hmk, hsum]
  congr 1; apply BitVec.eq_of_toNat_eq; rw [BitVec.toNat_ofNat]; omega

/-- The word of BLT's format, which has no unused bits (R76). -/
theorem decodeWord_encB (i j : RegIdx) (a : Addr5) : decodeWord (encB Opcode.blt.bits i j a) = .blt i j a := by
  have hsum := encB_toNat Opcode.blt.bits i j a
  have hop : (encB Opcode.blt.bits i j a).toNat / 8192 = Opcode.blt.bits.toNat := by omega
  rw [decodeWord_eq_instrOfNat .blt hop, hsum, Opcode.instrOfNat, Instr.blt.injEq]
  refine ⟨?_, ?_, ?_⟩ <;> apply BitVec.eq_of_toNat_eq <;> rw [BitVec.toNat_ofNat] <;> omega

/-- An encoding is a word of its instruction's format whose unused bits are 0. -/
theorem decodeWord_encode (i : Instr) : decodeWord (encode i) = i := by
  cases i with
  | ldi i imm => exact Machine.decodeWord_ldi_layout i imm 0
  | add i j k => exact Machine.decodeWord_threeRegister_layout (o := .add) (fun _ => rfl) i j k 0
  | and i j k => exact Machine.decodeWord_threeRegister_layout (o := .and) (fun _ => rfl) i j k 0
  | or i j k => exact Machine.decodeWord_threeRegister_layout (o := .or) (fun _ => rfl) i j k 0
  | xor i j k => exact Machine.decodeWord_threeRegister_layout (o := .xor) (fun _ => rfl) i j k 0
  | prt i => exact decodeWord_oneRegister_layout (o := .prt) (fun _ => rfl) i 0
  | rdd i => exact decodeWord_oneRegister_layout (o := .rdd) (fun _ => rfl) i 0
  | blt i j a => exact decodeWord_encB i j a

/-- The two bytes of a word, the high byte first, make the word again (R51, R52). -/
theorem wordOfBytes_bytesOfWord (w : Word) : wordOfBytes (w.extractLsb' 8 8) (w.extractLsb' 0 8) = w :=
  BitVec.extractLsb'_append_extractLsb' (w := 8) (len := 8)

/-- Settles O1: an encoding decodes to its instruction, and its two bytes make the encoding again. -/
theorem encodeThenDecode : Obligations.EncodeThenDecode := fun i rest => by
  refine ⟨decodeWord_encode i, ?_⟩
  show Except.ok (decodeWord (wordOfBytes _ _), rest) = _
  rw [wordOfBytes_bytesOfWord, decodeWord_encode]

/-- The number of low bits that an opcode's format leaves unused: bit 0, bits 8:0, or none (R81). -/
def Opcode.unusedBits : Opcode → Nat
  | .ldi => 1
  | .add => 1
  | .and => 1
  | .or => 1
  | .xor => 1
  | .prt => 9
  | .rdd => 9
  | .blt => 0

/-- The mask of the used bits is all ones above the unused ones. -/
theorem Opcode.usedMask_eq (o : Opcode) : o.usedMask = BitVec.allOnes 16 <<< o.unusedBits := by
  cases o <;> decide

/-- Clearing the unused bits of a word rounds it down to a multiple of their power of 2. -/
theorem and_usedMask_toNat (w : Word) (o : Opcode) :
    (w &&& o.usedMask).toNat = w.toNat / 2 ^ o.unusedBits * 2 ^ o.unusedBits := by
  rw [o.usedMask_eq, ← BitVec.shiftLeft_ushiftRight, BitVec.toNat_shiftLeft, BitVec.toNat_ushiftRight,
    Nat.shiftRight_eq_div_pow, Nat.shiftLeft_eq]
  exact Nat.mod_eq_of_lt ((Nat.div_mul_le_self _ _).trans_lt w.isLt)

theorem opcode_decodeWord (w : Word) : (decodeWord w).opcode = Opcode.ofBits (opcodeField w) := by
  unfold decodeWord
  cases Opcode.ofBits (opcodeField w) <;> rfl

/-- Encoding a decoded word clears the unused bits of its format (R82): each format is the sum of its fields. -/
theorem encode_decodeWord (w : Word) : encode (decodeWord w) = w &&& (decodeWord w).opcode.usedMask := by
  apply BitVec.eq_of_toNat_eq
  have hop : (Opcode.ofBits (opcodeField w)).bits.toNat = w.toNat / 8192 := by rw [bits_ofBits, opcodeField_toNat]
  rw [and_usedMask_toNat, opcode_decodeWord, decodeWord]
  cases h : Opcode.ofBits (opcodeField w) <;> rw [h] at hop <;>
    simp only [encode, encI_toNat, encR_toNat, encS_toNat, encB_toNat, hop, riField_toNat, rjField_toNat,
      rkField_toNat, imm8Field_toNat, addr5Field_toNat, Opcode.unusedBits, Nat.reducePow] <;>
    omega

/-- Settles O2, format by format. -/
theorem decodeThenEncodeClearsUnusedBits : Obligations.DecodeThenEncodeClearsUnusedBits := encode_decodeWord

/-- The unused bits of a word do not change the instruction (R81). -/
theorem decodeWord_and_usedMask (w : Word) :
    decodeWord (w &&& (Opcode.ofBits (opcodeField w)).usedMask) = decodeWord w := by
  rw [← opcode_decodeWord, ← encode_decodeWord, decodeWord_encode]

/-- Settles O5: a word's instruction is that of the word with its unused bits cleared, which the instruction encodes to. -/
theorem onlyUsedBitsSelectTheInstruction : Obligations.OnlyUsedBitsSelectTheInstruction := by
  refine fun w v => ⟨fun h => ?_, fun ⟨hop, hbits⟩ => ?_⟩
  · have hop : Opcode.ofBits (opcodeField w) = Opcode.ofBits (opcodeField v) := by
      rw [← opcode_decodeWord, h, opcode_decodeWord]
    refine ⟨by rw [← bits_ofBits (opcodeField w), hop, bits_ofBits], ?_⟩
    calc w &&& (Opcode.ofBits (opcodeField w)).usedMask
        = encode (decodeWord w) := by rw [encode_decodeWord, opcode_decodeWord]
      _ = v &&& (Opcode.ofBits (opcodeField w)).usedMask := by rw [h, encode_decodeWord, opcode_decodeWord, hop]
  · rw [← decodeWord_and_usedMask w, hbits, hop, decodeWord_and_usedMask]

/-- The opcode is among the used bits of every format. -/
theorem opcodeField_and_usedMask (w : Word) (o : Opcode) : opcodeField (w &&& o.usedMask) = opcodeField w := by
  apply BitVec.eq_of_toNat_eq
  rw [opcodeField_toNat, opcodeField_toNat, and_usedMask_toNat]
  cases o <;> simp only [Opcode.unusedBits, Nat.reducePow] <;> omega

/-- The words of an instruction are those that its used bits make its encoding. -/
theorem decodeWord_eq_iff {w : Word} {i : Instr} : decodeWord w = i ↔ w &&& i.opcode.usedMask = encode i := by
  refine ⟨fun h => by rw [← h, encode_decodeWord], fun h => ?_⟩
  have hop : Opcode.ofBits (opcodeField w) = i.opcode := by
    rw [← opcodeField_and_usedMask w i.opcode, h, ← opcode_decodeWord, decodeWord_encode]
  rw [← decodeWord_and_usedMask, hop, h, decodeWord_encode]

/-- The words of an instruction: its encoding, with every value of the unused bits. -/
def encodings (i : Instr) : List Word :=
  (List.range (2 ^ i.opcode.unusedBits)).map fun u => encode i + BitVec.ofNat 16 u

/-- No format leaves more than nine bits unused, so no value of them carries out of a word. -/
theorem Opcode.two_pow_unusedBits_le (o : Opcode) : 2 ^ o.unusedBits ≤ 512 := by cases o <;> decide

theorem nodup_encodings (i : Instr) : (encodings i).Nodup := by
  refine List.nodup_range.map_on fun u hu v hv h => ?_
  have hle := i.opcode.two_pow_unusedBits_le
  rw [List.mem_range] at hu hv
  have heq := congrArg BitVec.toNat (add_left_cancel h)
  rwa [BitVec.toNat_ofNat, BitVec.toNat_ofNat, Nat.mod_eq_of_lt (by omega), Nat.mod_eq_of_lt (by omega)] at heq

theorem mem_encodings {i : Instr} {w : Word} : w ∈ encodings i ↔ decodeWord w = i := by
  have henc : encode i &&& i.opcode.usedMask = encode i := decodeWord_eq_iff.mp (decodeWord_encode i)
  rw [← BitVec.toNat_inj, and_usedMask_toNat] at henc
  have hw := w.isLt
  have he := (encode i).isLt
  simp only [encodings, List.mem_map, List.mem_range, decodeWord_eq_iff, ← BitVec.toNat_inj, and_usedMask_toNat,
    BitVec.toNat_add, BitVec.toNat_ofNat]
  refine ⟨fun ⟨u, hu, hsum⟩ => ?_, fun h => ⟨w.toNat % 2 ^ i.opcode.unusedBits, Nat.mod_lt _ (by positivity), ?_⟩⟩
  · revert henc hu
    cases i.opcode <;> simp only [Opcode.unusedBits, Nat.reducePow] <;> omega
  · have hdm := Nat.div_add_mod' w.toNat (2 ^ i.opcode.unusedBits)
    omega

/-- Settles O6: one word for each value of the unused bits. -/
theorem encodingsOfAnInstruction : Obligations.EncodingsOfAnInstruction := by
  refine fun i => ⟨encodings i, nodup_encodings i, fun _ => mem_encodings, ?_⟩
  rw [encodings, List.length_map, List.length_range]
  cases i <;> rfl

/-- Settles O4: ten words, evaluated. -/
theorem tabledWordsDecode : Obligations.TabledWordsDecode := by
  unfold Obligations.TabledWordsDecode; decide

end Sys2Proof
end

section
/-! Reset and load: what the load of an image places where (20_memory.md R64, 70_reset_and_hazards.md R220, R221). -/

namespace Sys2Proof.Machine

/-- The state after the load of an image (R221). -/
def loadedState (image : List Byte) : State :=
  { State.reset with
    mem := Memory.writeAll [] 0 image
    len := BitVec.ofNat 6 image.length
    state := if image.length = 0 then .haltedNormal else .running }

theorem loadImage_of_le {image : List Byte} (h : image.length ≤ 32) :
    loadImage image = .next (loadedState image) := if_pos h

theorem loadImage_of_gt {image : List Byte} (h : 32 < image.length) :
    loadImage image = .refused (.imageTooLong image.length) := if_neg (Nat.not_le.mpr h)

/-- A load that gives a state was given at most 32 bytes (R64). -/
theorem loadImage_next {image : List Byte} {s : State} (h : loadImage image = .next s) :
    image.length ≤ 32 ∧ s = loadedState image := by
  rcases Nat.lt_or_ge 32 image.length with hgt | hle
  · rw [loadImage_of_gt hgt] at h; cases h
  · rw [loadImage_of_le hle] at h; cases h; exact ⟨hle, rfl⟩

theorem loadedState_len {image : List Byte} (h : image.length ≤ 32) :
    (loadedState image).len.toNat = image.length := Nat.mod_eq_of_lt (by omega)

theorem loadedState_memWf {image : List Byte} (h : image.length ≤ 32) : Memory.wf (loadedState image).mem :=
  Memory.wf_writeAll Memory.wf_nil ((Nat.zero_add _).trans_le h)

/-- Every address holds the image's byte, or 0 past its end (R56, R57). -/
theorem loadedState_byteAt {image : List Byte} (h : image.length ≤ 32) (k : Nat) :
    (loadedState image).mem.byteAt k = image.getD k 0 := by
  refine (Memory.byteAt_writeAll Memory.wf_nil ((Nat.zero_add _).trans_le h) k).trans ?_
  split
  · rfl
  · next hk =>
    have hend : image.length ≤ k := by omega
    exact (List.getD_eq_default _ _ hend).symm

theorem loadedState_reg (image : List Byte) (r : RegIdx) : (loadedState image).reg r = 0 :=
  Vector.getElem_replicate r.isLt

/-- Settles O11: the load writes no register and leaves `pc` at its reset value. -/
theorem registersAndPcStartAtZero : Obligations.RegistersAndPcStartAtZero :=
  ⟨fun image s h => by
    obtain ⟨-, rfl⟩ := loadImage_next h
    exact ⟨loadedState_reg image, rfl⟩, loadedState_reg [], rfl⟩

/-- Settles O12: the load's state, byte by byte and field by field. -/
theorem loadPlacesTheImage : Obligations.LoadPlacesTheImage := by
  refine ⟨fun image h => ⟨loadedState image, loadImage_of_le h, fun k hk => ?_, loadedState_len h, rfl, rfl, ?_,
    rfl, rfl, rfl⟩, fun _ h => loadImage_of_gt h⟩
  · rw [Memory.read_inside hk, loadedState_byteAt h]
  · cases image <;> rfl

/-- Settles O13: the byte after the image's last one is 0, and there is one, for 32 is even. -/
theorem oddImageEndsInZeroByte : Obligations.OddImageEndsInZeroByte := by
  intro image s last h hodd hlast
  obtain ⟨hle, rfl⟩ := loadImage_next h
  refine ⟨_, Memory.readWord_inside (show image.length - 1 + 1 < 32 by omega), ?_⟩
  have hhi : image.getD (image.length - 1) 0 = last := by
    rw [List.getD_eq_getElem?_getD, ← List.getLast?_eq_getElem?, hlast, Option.getD_some]
  have hlo : image.getD (image.length - 1 + 1) 0 = 0 := List.getD_eq_default _ _ (by omega)
  rw [wordOfBytes_toNat, loadedState_byteAt hle, loadedState_byteAt hle, hhi, hlo, Nat.mul_comm]
  rfl

/-- A canonical memory lists exactly the bytes that are not 0. -/
theorem Memory.mem_iff_byteAt {m : Memory} (hm : m.wf) (c : Host.Cell) :
    c ∈ m ↔ m.byteAt c.1 = c.2 ∧ c.2 ≠ Config.unlistedByte := by
  induction m with
  | nil => exact ⟨nofun, fun ⟨h, hne⟩ => absurd h.symm hne⟩
  | cons d m ih =>
    obtain ⟨hs, hcells⟩ := hm
    obtain ⟨hd, hs'⟩ := List.pairwise_cons.mp hs
    have ih := ih ⟨hs', fun c hc => hcells c (List.mem_cons_of_mem d hc)⟩
    obtain ⟨d1, d2⟩ := d
    obtain ⟨c1, c2⟩ := c
    rw [List.mem_cons, ih, Memory.byteAt, Prod.mk.injEq]
    by_cases hk : d1 = c1
    · subst hk
      have hlow : Memory.byteAt m d1 = Config.unlistedByte := Memory.byteAt_of_lt hd
      have hne : d2 ≠ Config.unlistedByte := (hcells (d1, d2) List.mem_cons_self).2
      rw [if_pos rfl, hlow]
      constructor
      · rintro (⟨-, rfl⟩ | ⟨rfl, hzero⟩)
        · exact ⟨rfl, hne⟩
        · exact absurd rfl hzero
      · rintro ⟨rfl, -⟩
        exact .inl ⟨rfl, rfl⟩
    · simp [hk, Ne.symm hk]

/-- An address of 32 or more is not listed, so it holds the unlisted byte. -/
theorem Memory.byteAt_of_ge {m : Memory} (hm : m.wf) {a : Nat} (ha : Config.memSize ≤ a) :
    m.byteAt a = Config.unlistedByte := by
  by_contra hne
  have hmem : (a, m.byteAt a) ∈ m := (Memory.mem_iff_byteAt hm _).mpr ⟨rfl, hne⟩
  exact absurd (hm.2 _ hmem).1 (Nat.not_lt.mpr ha)

/-- Settles O14: canonical memories with the same bytes list the same cells, and in the same order, for addresses rise. -/
theorem canonicalMemoriesAreEqualByBytes : Obligations.CanonicalMemoriesAreEqualByBytes := by
  intro m n hm hn h
  have hbyte (a : Nat) : m.byteAt a = n.byteAt a := by
    rcases Nat.lt_or_ge a 32 with ha | ha
    · have hread := h a ha
      rwa [Memory.read_inside ha, Memory.read_inside ha, Except.ok.injEq] at hread
    · rw [Memory.byteAt_of_ge hm ha, Memory.byteAt_of_ge hn ha]
  exact hm.1.eq_of_mem_iff hn.1 fun c => by rw [Memory.mem_iff_byteAt hm, Memory.mem_iff_byteAt hn, hbyte]

/-- The state after a load meets the invariant: it runs exactly if the image has a byte for the first fetch. -/
theorem inv_loadedState {image : List Byte} (h : image.length ≤ 32) : Inv (loadedState image) where
  memWf := loadedState_memWf h
  lenLe := (loadedState_len h).trans_le h
  tailZero a ha := by
    rw [loadedState_byteAt h, List.getD_eq_default _ _ (loadedState_len h ▸ ha)]
  pcEven := rfl
  pcLe := Nat.zero_le _
  fetchInside hr _ := by
    rw [loadedState_len h]
    cases image with
    | nil => cases hr
    | cons b bs => exact Nat.succ_pos _
  normalOutside hn := by
    cases image with
    | nil => exact Nat.le_refl _
    | cons b bs => cases hn
  errNone _ := rfl
  errMisaligned he := by cases image <;> cases he
  waitingRdd _ := nofun

/-- Settles O15: reset is the load of the empty image. -/
theorem resetMeetsInv : Obligations.ResetMeetsInv := inv_loadedState (image := []) (Nat.zero_le _)

/-- Settles O16: a load that gives a state was given at most 32 bytes. -/
theorem loadMeetsInv : Obligations.LoadMeetsInv := by
  intro image s h
  obtain ⟨hle, rfl⟩ := loadImage_next h
  exact inv_loadedState hle

end Sys2Proof.Machine
end

section
/-! Runs: what holds in every state a run reaches, and that a running machine goes on (40_engine.md R109 to R111). -/

namespace Sys2Proof.Machine

theorem waitState_keeps_mem_len (s : State) : s.waitState.mem = s.mem ∧ s.waitState.len = s.len := by
  obtain e | ⟨w, i, -, -, -, -, -, -, e⟩ := waitState_cases s <;> rw [e] <;> exact ⟨rfl, rfl⟩

/-- Along a run of an image the invariant holds and the image stays loaded. -/
theorem ReachableFrom.inv_and_loaded {image : List Byte} {s : State} (h : ReachableFrom image s) :
    image.length ≤ 32 ∧ Inv s ∧ s.mem = (loadedState image).mem ∧ s.len = (loadedState image).len := by
  induction h with
  | load s h =>
    obtain ⟨hle, rfl⟩ := loadImage_next h
    exact ⟨hle, inv_loadedState hle, rfl, rfl⟩
  | move s t _ hst ih =>
    obtain ⟨hle, hi, hm, hl⟩ := ih
    obtain ⟨hmem, hlen⟩ := step_keeps_mem_len hst
    exact ⟨hle, stepKeepsInv s t hi hst, hmem.trans hm, hlen.trans hl⟩
  | supply s n _ ih =>
    obtain ⟨hle, hi, hm, hl⟩ := ih
    exact ⟨hle, hi.supply n, hm, hl⟩
  | wait s _ ih =>
    obtain ⟨hle, hi, hm, hl⟩ := ih
    obtain ⟨hmem, hlen⟩ := waitState_keeps_mem_len s
    exact ⟨hle, hi.waitState, hmem.trans hm, hlen.trans hl⟩

/-- Before each fetch both bytes exist: `pc` is even and below `len`, which is at most 32 (R54). -/
theorem Inv.fetch_inside {s : State} (h : Inv s) (hr : s.state = .running) (hw : s.waiting = none) :
    s.pc.toNat + 1 < 32 := by
  have hin := h.fetchInside hr hw
  have hlen : s.len.toNat ≤ 32 := h.lenLe
  have heven := h.pcEven
  omega

theorem Inv.err_ne_unknownOpcode {s : State} (h : Inv s) : s.err ≠ .unknownOpcode := by
  by_cases he : s.state = .haltedError
  · rw [h.errMisaligned he]; decide
  · rw [h.errNone he]; decide

/-- Settles O18: the invariant and the loaded image hold along every run. -/
theorem reachableStatesAreSound : Obligations.ReachableStatesAreSound := by
  intro image s hreach
  obtain ⟨hle, h, hmem, hlen⟩ := hreach.inv_and_loaded
  refine ⟨h.pcEven, h.pcLe, fun hr hw => Nat.le_of_lt_succ (h.fetch_inside hr hw), fun k hk => ?_, ?_,
    fun hn => ⟨h.errNone (by rw [hn]; decide), h.normalOutside hn⟩, h.err_ne_unknownOpcode⟩
  · rw [Memory.read_inside hk, hmem, loadedState_byteAt hle]
  · rw [hlen, loadedState_len hle]

end Sys2Proof.Machine
end

section
/-! The engine's stops and the wait of an RDD: when a step is the stop of a wait, and what ends it (40_engine.md R106 to
R108, 43_io.md R153). -/

namespace Sys2Proof.Machine

/-! ### The stops of a step -/

theorem step_of_haltedNormal {s : State} (h : s.state = .haltedNormal) : step s = .fault .haltedNormal := by
  simp [step, engineStep, h]

theorem step_of_haltedError {s : State} (h : s.state = .haltedError) : step s = .fault (.haltedError s.err) := by
  simp [step, engineStep, h]

/-- Settles O20: the engine looks at its state first. -/
theorem haltedMachineHasNoStep : Obligations.HaltedMachineHasNoStep := fun _ =>
  ⟨step_of_haltedNormal, step_of_haltedError⟩

theorem step_of_outside {s : State} (hr : s.state = .running) (hw : s.waiting = none)
    (hout : s.len.toNat ≤ s.pc.toNat) : step s = .next s.continueRun := by
  simp [step, engineStep, hr, hw, (insideImage_eq_false_iff s).mpr hout]

theorem step_of_no_word {s : State} {a : Nat} (hr : s.state = .running) (hw : s.waiting = none)
    (hin : s.pc.toNat < s.len.toNat) (hf : s.fetchWord = .error a) : step s = .fault (.noSuchAddress a) := by
  simp [step, engineStep, hr, hw, (insideImage_iff s).mpr hin, cycle, hf]

/-- What a handler has answered is the stop of a wait exactly if it waits. -/
theorem afterHandler_next_waiting {u : State} {i : RegIdx} :
    afterHandler (.next u) = .fault (.waitingForInput i) ↔ u.waiting = some i := by
  simp [afterHandler_waiting]

theorem awaitInput_waiting_eq_some {s : State} {k i : RegIdx} :
    (s.awaitInput k).waiting = some i ↔ k = i ∧ s.input = [] := by
  obtain ⟨hq, e⟩ | ⟨n, rest, hq, e⟩ := awaitInput_cases s k <;> simp [e, hq]

/-- In a machine that did not wait, only RDD's handler waits, and only if no integer is supplied. -/
theorem exec_waiting_iff {i : Instr} {s t : State} {r : RegIdx} (h : exec i s = .next t) (hw : s.waiting = none) :
    t.waiting = some r ↔ i = .rdd r ∧ s.input = [] := by
  obtain ⟨k, v, -, -, hi, -, rfl⟩ | ⟨q, rfl, rfl⟩ | ⟨q, rfl, rfl⟩ |
    ⟨p, q, a, rfl, ⟨-, rfl⟩ | ⟨-, -, rfl⟩ | ⟨-, -, rfl⟩⟩ := exec_cases h
  · exact ⟨fun ht => (by cases hw.symm.trans ht), fun ⟨hrdd, _⟩ => absurd (congrArg Instr.opcode hrdd) hi⟩
  · simp [hw]
  · rw [awaitInput_waiting_eq_some, Instr.rdd.injEq]
  · simp [hw]
  · simp [hw]
  · simp [hw]

theorem step_waiting_iff_of_waiting {s : State} {k i : RegIdx} (hr : s.state = .running) (hw : s.waiting = some k) :
    step s = .fault (.waitingForInput i) ↔ k = i ∧ s.input = [] := by
  rw [step_of_waiting hr hw, afterHandler_next_waiting, awaitInput_waiting_eq_some]

theorem step_waiting_iff_of_ready {s : State} {w : Word} {i : RegIdx} (hr : s.state = .running)
    (hw : s.waiting = none) (hin : s.pc.toNat < s.len.toNat) (hf : s.fetchWord = .ok w) :
    step s = .fault (.waitingForInput i) ↔ decodeWord w = .rdd i ∧ s.input = [] := by
  obtain ⟨u, hu⟩ := exec_total (decodeWord w) (s.advance w)
  rw [step_of_ready hr hw hin hf, hu, afterHandler_next_waiting, exec_waiting_iff hu hw, State.advance_input]

/-- A step is the stop of a wait for Ri exactly in or at an RDD of Ri with nothing supplied (R108). -/
theorem step_waiting_iff {s : State} {i : RegIdx} :
    step s = .fault (.waitingForInput i) ↔ s.state = .running ∧ s.input = [] ∧
      (s.waiting = some i ∨
        s.waiting = none ∧ s.pc.toNat < s.len.toNat ∧ ∃ w, s.fetchWord = .ok w ∧ decodeWord w = .rdd i) := by
  refine ⟨fun h => ?_, ?_⟩
  · cases hr : s.state with
    | haltedNormal => rw [step_of_haltedNormal hr] at h; cases h
    | haltedError => rw [step_of_haltedError hr] at h; cases h
    | running =>
      cases hw : s.waiting with
      | some k =>
        obtain ⟨rfl, hq⟩ := (step_waiting_iff_of_waiting hr hw).mp h
        exact ⟨rfl, hq, .inl rfl⟩
      | none =>
        rcases Nat.lt_or_ge s.pc.toNat s.len.toNat with hin | hout
        · cases hf : s.fetchWord with
          | error a => rw [step_of_no_word hr hw hin hf] at h; cases h
          | ok w =>
            obtain ⟨hd, hq⟩ := (step_waiting_iff_of_ready hr hw hin hf).mp h
            exact ⟨rfl, hq, .inr ⟨rfl, hin, w, rfl, hd⟩⟩
        · rw [step_of_outside hr hw hout] at h; cases h
  · rintro ⟨hr, hq, hw | ⟨hw, hin, w, hf, hd⟩⟩
    · exact (step_waiting_iff_of_waiting hr hw).mpr ⟨rfl, hq⟩
    · exact (step_waiting_iff_of_ready hr hw hin hf).mpr ⟨hd, hq⟩

/-- A run that begins with a stop is that stop. -/
theorem run_of_fault {s : State} {f : Fault} (h : step s = .fault f) (k : Nat) :
    Host.Core.run core (k + 1) s = .fault f := by
  have h' : core.step s = .fault f := h
  simp [Host.Core.run, h']

/-- Settles O33: the stop leaves the machine as it is, so every longer run ends in it too. -/
theorem waitWithoutInputHangs : Obligations.WaitWithoutInputHangs := fun _ _ =>
  ⟨step_waiting_iff, fun h k => run_of_fault h k⟩

/-! ### Progress -/

/-- A handler that has answered has returned, or waits. -/
theorem afterHandler_next_or_waits (u : State) :
    (∃ t, afterHandler (.next u) = .next t) ∨ ∃ i, afterHandler (.next u) = .fault (.waitingForInput i) := by
  cases hw : u.waiting with
  | none => exact .inl ⟨_, afterHandler_next.mpr ⟨u, rfl, hw, rfl⟩⟩
  | some i => exact .inr ⟨i, afterHandler_next_waiting.mpr hw⟩

/-- A running machine that meets the invariant and does not wait fetches a word. -/
theorem Inv.fetchWord {s : State} (h : Inv s) (hr : s.state = .running) (hw : s.waiting = none) :
    ∃ w, s.fetchWord = .ok w := ⟨_, Memory.readWord_inside (h.fetch_inside hr hw)⟩

/-- Under the invariant nothing stops a running machine but a wait for input: the fetch succeeds, every word has an
instruction, and every instruction an answer (R80). -/
theorem Inv.step_next_or_waits {s : State} (h : Inv s) (hr : s.state = .running) :
    (∃ t, step s = .next t) ∨ ∃ i, step s = .fault (.waitingForInput i) := by
  cases hw : s.waiting with
  | some i => rw [step_of_waiting hr hw]; exact afterHandler_next_or_waits _
  | none =>
    obtain ⟨w, hf⟩ := h.fetchWord hr hw
    obtain ⟨u, hu⟩ := exec_total (decodeWord w) (s.advance w)
    rw [step_of_ready hr hw (h.fetchInside hr hw) hf, hu]
    exact afterHandler_next_or_waits u

theorem Inv.step_next_of_input {s : State} (h : Inv s) (hr : s.state = .running) (hq : s.input ≠ []) :
    ∃ t, step s = .next t := by
  obtain hnext | ⟨i, hi⟩ := h.step_next_or_waits hr
  · exact hnext
  · obtain ⟨-, hnil, -⟩ := step_waiting_iff.mp hi
    exact absurd hnil hq

theorem State.supply_input_ne_nil (s : State) (n : Int) : (s.supply n).input ≠ [] := by simp

/-- Settles O19: only a wait lacks a step, and a supplied integer ends it. -/
theorem runningMachineNeverStops : Obligations.RunningMachineNeverStops := by
  refine fun s h hr => ⟨h.step_next_of_input hr, fun _ => (h.step_next_or_waits hr).imp_right ?_⟩
  rintro ⟨i, hi⟩
  obtain ⟨-, -, hw⟩ := step_waiting_iff.mp hi
  exact ⟨i, hi, hw.imp_right fun ⟨_, _, hword⟩ => hword,
    fun n => (h.supply n).step_next_of_input hr (s.supply_input_ne_nil n)⟩

/-! ### The wait and its end -/

/-- Settles O32: the machine is ready for the cycle of an RDD, and STATUS reads the middle of it. -/
theorem rddWithoutInputWaits : Obligations.RddWithoutInputWaits := by
  intro i s w hr hw hin hf hd hq
  have hwait := waitState_of_rdd hr hw hin hf hd hq
  refine ⟨(step_waiting_iff_of_ready hr hw hin hf).mpr ⟨hd, hq⟩, hwait, ?_⟩
  rw [State.status, hwait, ← hr]
  rfl

/-- A waiting machine with an integer supplied completes its RDD. -/
theorem step_of_waiting_supplied {s : State} {i : RegIdx} (hr : s.state = .running) (hw : s.waiting = some i)
    (hq : s.input ≠ []) : step s = .next (s.awaitInput i).continueRun := by
  rw [step_of_waiting hr hw]
  exact afterHandler_next.mpr ⟨_, rfl, (awaitInput_waiting_eq_none s i).mpr hq, rfl⟩

/-- The integer supplied to a machine that had none is taken whole: its low byte is written and the wait ends. -/
theorem State.awaitInput_supply {s : State} (i : RegIdx) (n : Int) (hq : s.input = []) :
    (s.supply n).awaitInput i = { s.writeReg i (lowByte n) with
      input := [], trace := s.trace ++ [.inp n], waiting := none } :=
  State.awaitInput_cons (s.supply n) i (by rw [State.supply_input, hq, List.nil_append])

/-- Settles O34: the step completes the RDD and tests `pc < len`. -/
theorem suppliedIntegerEndsTheWait : Obligations.SuppliedIntegerEndsTheWait := by
  intro s i n hr hw hq
  refine ⟨_, step_of_waiting_supplied hr hw (s.supply_input_ne_nil n), ?_⟩
  rw [State.awaitInput_supply i n hq]
  have ⟨hi, hother, _⟩ := s.writeReg_effect i (lowByte n)
  have hbyte : ((s.writeReg i (lowByte n)).reg i).toNat = n % 256 := by rw [hi, lowByte_toNat]
  refine ⟨?_, fun r hne => (State.continueRun_reg _ r).trans (hother r hne), State.continueRun_trace _,
    State.continueRun_input _, State.continueRun_waiting _, State.continueRun_pc _, State.continueRun_ir _,
    State.continueRun_mem _, State.continueRun_len _, State.continueRun_err _, ?_⟩
  · rw [State.continueRun_reg]; exact hbyte
  · split
    · next hlt => exact (State.continueRun_state_of_inside (by exact hlt)).trans hr
    · next hge => exact State.continueRun_state_of_outside hr (Nat.not_lt.mp hge)

/-- Settles O35: either way the integer is taken in the middle of the same cycle, by a handler that then waits for
nothing. -/
theorem timeOfSupplyIsNotObservable : Obligations.TimeOfSupplyIsNotObservable := by
  intro s i n hw h
  obtain ⟨hr, hq, hwi | ⟨-, hin, w, hf, hd⟩⟩ := step_waiting_iff.mp h
  · cases hw.symm.trans hwi
  rw [waitState_of_rdd hr hw hin hf hd hq]
  refine ⟨rfl, ?_⟩
  calc step (({ s.advance w with waiting := some i } : State).supply n)
      = afterHandler (.next (({ s.advance w with waiting := some i } : State).supply n |>.awaitInput i)) :=
        step_of_waiting hr rfl
    _ = afterHandler (.next (((s.advance w).supply n).awaitInput i)) := by
        rw [State.awaitInput_supply (s := { s.advance w with waiting := some i }) i n hq,
          State.awaitInput_supply (s := s.advance w) i n hq]
        rfl
    _ = step (s.supply n) := by
        rw [step_of_ready (s := s.supply n) hr hw hin hf, hd]
        rfl

/-! ### One cycle -/

/-- Settles O21: the engine takes the handler's answer, and the continuation test is R105's. -/
theorem stepRunsTheDecodedInstruction : Obligations.StepRunsTheDecodedInstruction := by
  intro s u w hr hw hin hf hu
  refine ⟨fun huw => ?_, fun i huw => ?_⟩
  · rw [step_of_cycle hr hw hin hf hu huw, State.continueRun]
    simp only [insideImage_eq_false_iff, Nat.not_lt]
  · rw [step_of_ready hr hw hin hf]
    exact (congrArg afterHandler hu).trans (afterHandler_next_waiting.mpr huw)

/-- Settles O23: no handler writes the `ir` that the fetch has set. -/
theorem fetchIsBigEndian : Obligations.FetchIsBigEndian := by
  intro s t hw hin hlt h
  obtain ⟨-, ⟨i, hwi, -⟩ | ⟨-, hout, -⟩ | ⟨-, -, w, u, hf, hu, -, rfl⟩⟩ := step_cases h
  · cases hw.symm.trans hwi
  · exact absurd hin (Nat.not_lt.mpr ((insideImage_eq_false_iff s).mp hout))
  · obtain ⟨-, -, hir⟩ := exec_keeps_mem_len_ir hu
    cases (Memory.readWord_inside hlt).symm.trans hf
    rw [State.continueRun_ir, hir, State.advance_ir, wordOfBytes_toNat, Nat.mul_comm]

end Sys2Proof.Machine
end

section
/-! What each handler leaves unchanged, field by field, and what no handler reads (10_state.md R22, R25, R33, R37;
60_exceptions.md R190, R195). -/

namespace Sys2Proof.Machine

/-! ### The frame of a handler -/

/-- Only its destination is written. -/
theorem exec_reg {i : Instr} {s t : State} (h : exec i s = .next t) {r : RegIdx} (hr : destination i ≠ some r) :
    t.reg r = s.reg r := by
  obtain ⟨k, v, hk, -, -, -, rfl⟩ | ⟨q, -, rfl⟩ | ⟨q, rfl, rfl⟩ |
    ⟨p, q, a, -, ⟨-, rfl⟩ | ⟨-, -, rfl⟩ | ⟨-, -, rfl⟩⟩ := exec_cases h
  · exact s.writeReg_reg_other v fun e => hr (e ▸ hk)
  · rfl
  · obtain ⟨-, e⟩ | ⟨n, rest, -, e⟩ := awaitInput_cases s q <;> rw [e]
    · rfl
    · exact s.writeReg_reg_other _ fun e => hr (e ▸ rfl)
  · rfl
  · rfl
  · rfl

/-- A handler writes the engine state and `err` only to report the failure of a BLT with an odd target (R104). -/
theorem exec_failure {i : Instr} {s t : State} (h : exec i s = .next t) :
    (t.state = s.state ∧ t.err = s.err) ∨
    ∃ r q a, i = .blt r q a ∧ a.toNat % 2 = 1 ∧ t = s.fail .misalignedBranch := by
  obtain ⟨k, v, -, -, -, -, rfl⟩ | ⟨r, -, rfl⟩ | ⟨r, -, rfl⟩ |
    ⟨r, q, a, hi, ⟨ha, rfl⟩ | ⟨-, -, rfl⟩ | ⟨-, -, rfl⟩⟩ := exec_cases h
  · exact .inl ⟨rfl, rfl⟩
  · exact .inl ⟨rfl, rfl⟩
  · exact .inl ⟨s.awaitInput_state r, s.awaitInput_err r⟩
  · exact .inr ⟨r, q, a, hi, ha, rfl⟩
  · exact .inl ⟨rfl, rfl⟩
  · exact .inl ⟨rfl, rfl⟩

/-- Only RDD touches the IN channel and the wait. -/
theorem exec_keeps_input_waiting {i : Instr} {s t : State} (h : exec i s = .next t) (hi : i.opcode ≠ .rdd) :
    t.input = s.input ∧ t.waiting = s.waiting := by
  obtain ⟨k, v, -, -, -, -, rfl⟩ | ⟨r, -, rfl⟩ | ⟨r, rfl, -⟩ |
    ⟨r, q, a, -, ⟨-, rfl⟩ | ⟨-, -, rfl⟩ | ⟨-, -, rfl⟩⟩ := exec_cases h
  · exact ⟨rfl, rfl⟩
  · exact ⟨rfl, rfl⟩
  · exact absurd rfl hi
  · exact ⟨rfl, rfl⟩
  · exact ⟨rfl, rfl⟩
  · exact ⟨rfl, rfl⟩

/-- Every instruction but PRT and RDD is silent. -/
theorem cycleLabel_eq_none {i : Instr} (s : State) (hp : i.opcode ≠ .prt) (hr : i.opcode ≠ .rdd) :
    cycleLabel i s = none := by
  cases i with
  | prt r => exact absurd rfl hp
  | rdd r => exact absurd rfl hr
  | _ => rfl

/-- A handler records the event of its cycle's label. -/
theorem exec_trace {i : Instr} {s t : State} (h : exec i s = .next t) :
    t.trace = s.trace ++ (cycleLabel i s).toList := by
  obtain ⟨k, v, -, hp, hr, -, rfl⟩ | ⟨r, rfl, rfl⟩ | ⟨r, rfl, rfl⟩ |
    ⟨r, q, a, rfl, ⟨-, rfl⟩ | ⟨-, -, rfl⟩ | ⟨-, -, rfl⟩⟩ := exec_cases h
  · rw [cycleLabel_eq_none s hp hr]; exact (List.append_nil _).symm
  · rfl
  · obtain ⟨hq, e⟩ | ⟨n, rest, hq, e⟩ := awaitInput_cases s r <;> simp [e, cycleLabel, hq]
  · exact (List.append_nil _).symm
  · exact (List.append_nil _).symm
  · exact (List.append_nil _).symm

/-- Settles O42: the frame, field by field. -/
theorem instructionFrame : Obligations.InstructionFrame := by
  intro i s t h
  obtain ⟨hmem, hlen, hir⟩ := exec_keeps_mem_len_ir h
  refine ⟨fun _ => exec_reg h, fun _ => by rw [hmem], hlen, hir, fun hb => ?_, exec_keeps_input_waiting h,
    fun hp hr => by rw [exec_trace h, cycleLabel_eq_none s hp hr, Option.toList_none, List.append_nil]⟩
  have hpc : t.pc = s.pc := by
    obtain hpc | ⟨_, _, _, rfl, -⟩ := exec_pc h
    · exact hpc
    · exact absurd rfl hb
  obtain hkeep | ⟨_, _, _, rfl, -⟩ := exec_failure h
  · exact ⟨hpc, hkeep⟩
  · exact absurd rfl hb

/-- Settles O41: the only failure a handler reports is MISALIGNED_BRANCH. -/
theorem unknownOpcodeIsUnreachable : Obligations.UnknownOpcodeIsUnreachable := by
  refine ⟨fun s op i j k hop => ?_, fun i s t h ht => ?_⟩
  · obtain rfl | rfl | rfl | rfl := hop <;> rfl
  · obtain ⟨-, herr⟩ | ⟨_, _, _, -, -, rfl⟩ := exec_failure h
    · exact herr ▸ ht
    · cases ht

/-! ### What no handler reads -/

/-- An instruction other than RDD reads neither `ir`, `len` and memory nor the IN channel: they pass through it. -/
theorem exec_unread {i : Instr} {s t : State} (hi : i.opcode ≠ .rdd) (h : exec i s = .next t) (w : Word) (l : PcWord)
    (m : Memory) (q : List Int) : exec i { s with ir := w, len := l, mem := m, input := q } =
      .next { t with ir := w, len := l, mem := m, input := q } := by
  cases i with
  | rdd r => exact absurd rfl hi
  | ldi r v => rw [exec_ldi] at h; cases h; rfl
  | add r p k => rw [exec_add] at h; cases h; rfl
  | and r p k => rw [exec_and] at h; cases h; rfl
  | or r p k => rw [exec_or] at h; cases h; rfl
  | xor r p k => rw [exec_xor] at h; cases h; rfl
  | prt r => rw [exec_prt] at h; cases h; rfl
  | blt r p a =>
    rcases Nat.mod_two_eq_zero_or_one a.toNat with ha | ha
    · by_cases hlt : (s.reg r).toNat < (s.reg p).toNat
      · rw [exec_blt_taken ha hlt] at h; cases h; exact exec_blt_taken ha hlt
      · rw [exec_blt_not_taken ha hlt] at h; cases h; exact exec_blt_not_taken ha hlt
    · rw [exec_blt_odd s ha] at h; cases h; exact exec_blt_odd _ ha

/-- RDD reads neither `ir` nor `len` nor memory. -/
theorem State.awaitInput_unread (s : State) (i : RegIdx) (w : Word) (l : PcWord) (m : Memory) :
    State.awaitInput { s with ir := w, len := l, mem := m } i = { s.awaitInput i with ir := w, len := l, mem := m } := by
  obtain ⟨h, e⟩ | ⟨n, rest, h, e⟩ := awaitInput_cases s i
  · rw [e]; exact State.awaitInput_nil _ i h
  · rw [e]; exact State.awaitInput_cons _ i h

/-- Settles O45: RDD alone reads the IN channel, and it reads none of the three either. -/
theorem instructionsDoNotSeeIrLenOrMemory : Obligations.InstructionsDoNotSeeIrLenOrMemory := by
  intro i s w l m
  obtain ⟨t, ht⟩ := exec_total i s
  refine ⟨t, ht, ?_⟩
  by_cases hi : i.opcode = .rdd
  · cases i with
    | rdd r => cases ht; exact congrArg Host.Outcome.next (s.awaitInput_unread r w l m)
    | _ => cases hi
  · obtain ⟨hinput, -⟩ := exec_keeps_input_waiting ht hi
    exact (exec_unread hi ht w l m s.input).trans (by rw [← hinput])

/-- Settles O46: the three other fields that pass through keep their own values. -/
theorem onlyRddSeesTheInput : Obligations.OnlyRddSeesTheInput := by
  intro i s q hi
  obtain ⟨t, ht⟩ := exec_total i s
  obtain ⟨hmem, hlen, hir⟩ := exec_keeps_mem_len_ir ht
  exact ⟨t, ht, (exec_unread hi ht s.ir s.len s.mem q).trans (by rw [← hmem, ← hlen, ← hir])⟩

end Sys2Proof.Machine
end

section
/-! PRT, RDD and the idioms (43_io.md R151, R153, R154; 30_encoding.md R85). -/

namespace Sys2Proof.Machine

/-- A line of one register is written as its mnemonic and the register (R83). -/
theorem lineText_oneRegister (o : Opcode) (a : Nat) :
    lineText ⟨o, [.reg a]⟩ = opcodeName o ++ [' ', 'R'] ++ decimal a := by
  simp [lineText, operandText]

/-- Settles O30: PRT is one event more on OUT. -/
theorem prtEmitsItsRegister : Obligations.PrtEmitsItsRegister := fun i s =>
  ⟨⟨_, exec_prt i s, rfl, fun _ => rfl, rfl⟩, decodeWord_oneRegister_layout (o := .prt) (fun _ => rfl) i,
    lineText_oneRegister .prt _⟩

/-- Settles O31: RDD writes the low byte of the integer it takes. -/
theorem rddTakesOneInteger : Obligations.RddTakesOneInteger := by
  refine fun i s => ⟨fun n rest hq => ?_, decodeWord_oneRegister_layout (o := .rdd) (fun _ => rfl) i,
    lineText_oneRegister .rdd _⟩
  refine ⟨_, exec_rdd i s, ?_⟩
  rw [State.awaitInput_cons s i hq]
  have ⟨hi, hother, _⟩ := s.writeReg_effect i (lowByte n)
  have hbyte : ((s.writeReg i (lowByte n)).reg i).toNat = n % 256 := by rw [hi, lowByte_toNat]
  exact ⟨hbyte, hother, rfl, rfl, rfl, rfl⟩

/-- Settles O43: no value is below itself, `v OR v` is `v`, and `v XOR v` is 0. -/
theorem idiomsDoWhatTheySay : Obligations.IdiomsDoWhatTheySay := fun a b _ s =>
  have ⟨hor, horOther, _⟩ := s.writeReg_effect b (s.reg a ||| s.reg a)
  have ⟨hxor, hxorOther, _⟩ := s.writeReg_effect a (s.reg a ^^^ s.reg a)
  ⟨fun hp => exec_blt_not_taken hp (Nat.lt_irrefl _),
    ⟨_, exec_or a a b s, hor.trans BitVec.or_self, horOther⟩,
    ⟨_, exec_xor a a a s, hxor.trans BitVec.xor_self, hxorOther⟩⟩

end Sys2Proof.Machine
end

section
/-! The failure of a step: when it happens, what it records, and that it rolls nothing back (60_exceptions.md R190 to
R194). -/

namespace Sys2Proof.Machine

/-- A failed engine has left RUNNING, so the continuation test does nothing to it. -/
theorem State.continueRun_fail (s : State) (c : ErrCause) : (s.fail c).continueRun = s.fail c :=
  if_neg nofun

/-- Settles O38: the failed handler's state passes the continuation test as it is. -/
theorem failureRecordsAndRollsNothingBack : Obligations.FailureRecordsAndRollsNothingBack := by
  intro s w i j a hr hw hin hf hd ha
  have hu : exec (decodeWord w) (s.advance w) = .next ((s.advance w).fail .misalignedBranch) := by
    rw [hd, exec_blt_odd _ ha]
  rw [step_of_cycle hr hw hin hf hu hw, State.continueRun_fail]
  rfl

/-- A step keeps `err` and does not fail, or it is the cycle of a BLT with an odd target and fails (R104, R194). -/
theorem step_failure {s t : State} (h : step s = .next t) :
    (t.state ≠ .haltedError ∧ t.err = s.err) ∨
    (t.state = .haltedError ∧ t.err = .misalignedBranch ∧ s.waiting = none ∧ s.pc.toNat < s.len.toNat ∧
      ∃ w i j a, s.fetchWord = .ok w ∧ decodeWord w = .blt i j a ∧ a.toNat % 2 = 1) := by
  obtain ⟨hr, ⟨i, -, -, rfl⟩ | ⟨-, -, rfl⟩ | ⟨hw, hin, w, u, hf, hu, -, rfl⟩⟩ := step_cases h
  · exact .inl ⟨State.continueRun_state_ne_haltedError ((s.awaitInput_state i).trans hr),
      (State.continueRun_err _).trans (s.awaitInput_err i)⟩
  · exact .inl ⟨State.continueRun_state_ne_haltedError hr, s.continueRun_err⟩
  · obtain ⟨hstate, herr⟩ | ⟨i, j, a, hd, ha, rfl⟩ := exec_failure hu
    · exact .inl ⟨State.continueRun_state_ne_haltedError (hstate.trans hr), (State.continueRun_err _).trans herr⟩
    · rw [State.continueRun_fail]
      exact .inr ⟨rfl, rfl, hw, (insideImage_iff s).mp hin, w, i, j, a, hf, hd, ha⟩

/-- Settles O39: every other step passes the continuation test, which is no failure. -/
theorem onlyAnOddBranchFails : Obligations.OnlyAnOddBranchFails := by
  refine fun s t h => ⟨fun ht => ?_, fun ⟨hw, hin, w, i, j, a, hf, hd, ha⟩ => ?_⟩
  · obtain ⟨hne, -⟩ | ⟨-, -, hfail⟩ := step_failure h
    · exact absurd ht hne
    · exact hfail
  · obtain ⟨hr, -⟩ := step_cases h
    cases (failureRecordsAndRollsNothingBack s w i j a hr hw hin hf hd ha).symm.trans h
    rfl

/-- Settles O40: a step that does not fail keeps `err`. -/
theorem errWrittenOnlyOnFailure : Obligations.ErrWrittenOnlyOnFailure := by
  intro s t h hne
  obtain ⟨hr, -⟩ := step_cases h
  obtain ⟨-, herr⟩ | ⟨ht, herr, -⟩ := step_failure h
  · exact absurd herr hne
  · exact ⟨hr, ht, herr⟩

end Sys2Proof.Machine
end

section
/-! Labels: the events of a step, the order of the inputs, and the labelled step relation (40_engine.md R108). -/

namespace Sys2Proof.Machine

/-! ### The label of a step -/

theorem State.label_of_waiting {s : State} {i : RegIdx} (hw : s.waiting = some i) :
    s.label = s.input.head?.map .inp := by
  simp [State.label, hw, cycleLabel]

theorem State.label_of_outside {s : State} (hw : s.waiting = none) (hout : s.insideImage = false) :
    s.label = none := by
  simp [State.label, hw, hout]

theorem State.label_of_ready {s : State} {w : Word} (hw : s.waiting = none) (hin : s.pc.toNat < s.len.toNat)
    (hf : s.fetchWord = .ok w) : s.label = cycleLabel (decodeWord w) s := by
  simp [State.label, hw, (insideImage_iff s).mpr hin, hf]

/-- The fetch changes nothing that a label reads. -/
theorem cycleLabel_advance (i : Instr) (s : State) (w : Word) : cycleLabel i (s.advance w) = cycleLabel i s := by
  cases i <;> rfl

/-- A step is silent, the continuation test alone, or it is a handler run from the channels of its state, whose cycle's
label it has. -/
theorem step_handler {s t : State} (h : step s = .next t) :
    (s.label = none ∧ t = s.continueRun) ∨
    ∃ i u v, exec i u = .next v ∧ u.trace = s.trace ∧ u.input = s.input ∧ s.label = cycleLabel i u ∧
      t = v.continueRun := by
  obtain ⟨-, ⟨i, hw, -, rfl⟩ | ⟨hw, hout, rfl⟩ | ⟨hw, hin, w, v, hf, hv, -, rfl⟩⟩ := step_cases h
  · exact .inr ⟨.rdd i, s, _, exec_rdd i s, rfl, rfl, State.label_of_waiting hw, rfl⟩
  · exact .inl ⟨State.label_of_outside hw hout, rfl⟩
  · have hlabel := State.label_of_ready hw ((insideImage_iff s).mp hin) hf
    exact .inr ⟨_, s.advance w, v, hv, rfl, rfl, hlabel.trans (cycleLabel_advance _ s w).symm, rfl⟩

/-- Every step extends the trace by its label. -/
theorem step_trace {s t : State} (h : step s = .next t) : t.trace = s.trace ++ s.label.toList := by
  obtain ⟨hl, rfl⟩ | ⟨i, u, v, hv, hu, -, hl, rfl⟩ := step_handler h
  · simp [hl]
  · rw [State.continueRun_trace, exec_trace hv, hu, hl]

/-- Settles O47: a step's label is that of the handler it runs. -/
theorem cycleEmitsItsLabel : Obligations.CycleEmitsItsLabel := by
  refine ⟨fun s t h => step_trace h, fun s w hw hin hf => ?_, fun s t i hw h => ?_⟩
  · rw [State.label_of_ready hw hin hf]
    cases decodeWord w <;> rfl
  · obtain ⟨-, ⟨_, -, hq, -⟩ | ⟨hw', -⟩ | ⟨hw', -⟩⟩ := step_cases h
    · obtain ⟨n, rest, hq⟩ := List.exists_cons_of_ne_nil hq
      exact ⟨n, rest, hq, by rw [State.label_of_waiting hw, hq]; rfl⟩
    · cases hw.symm.trans hw'
    · cases hw.symm.trans hw'

/-! ### The order of the inputs -/

/-- The integer an event takes from the IN channel, if it takes one. -/
def Event.taken? : Event → Option Int
  | .inp n => some n
  | .out _ _ => none

/-- What a handler's label takes, followed by the integers it leaves, are those it had. -/
theorem exec_input {i : Instr} {s t : State} (h : exec i s = .next t) :
    (cycleLabel i s).toList.filterMap Event.taken? ++ t.input = s.input := by
  by_cases hi : i.opcode = .rdd
  · cases i with
    | rdd r =>
      cases h
      obtain ⟨hq, e⟩ | ⟨n, rest, hq, e⟩ := awaitInput_cases s r <;> simp [e, cycleLabel, hq, Event.taken?]
    | _ => cases hi
  · obtain ⟨hinput, -⟩ := exec_keeps_input_waiting h hi
    have hnone : (cycleLabel i s).toList.filterMap Event.taken? = [] := by
      cases i with
      | rdd r => exact absurd rfl hi
      | _ => rfl
    rw [hnone, hinput, List.nil_append]

/-- What a step's label takes, followed by the integers it leaves, are those there were. -/
theorem step_input {s t : State} (h : step s = .next t) :
    s.label.toList.filterMap Event.taken? ++ t.input = s.input := by
  obtain ⟨hl, rfl⟩ | ⟨i, u, v, hv, -, hu, hl, rfl⟩ := step_handler h
  · simp [hl]
  · rw [State.continueRun_input, hl, exec_input hv, hu]

/-- Settles O48: the trace grows by the label, and the label takes from the front of the channel. -/
theorem inputsConsumedInOrder : Obligations.InputsConsumedInOrder := by
  intro s t h
  show t.trace.filterMap Event.taken? ++ t.input = s.trace.filterMap Event.taken? ++ s.input
  rw [step_trace h, List.filterMap_append, List.append_assoc, step_input h]

/-! ### The labelled step relation -/

/-- A state with a step of its own has that one transition, under the step's label. -/
theorem transition_of_next {s t : State} (h : step s = .next t) :
    (∃ t, Transition s s.label t) ∧ ∀ l t', Transition s l t' → l = s.label ∧ step s = .next t' := by
  refine ⟨⟨t, .cycle s t h⟩, fun l t' htr => ?_⟩
  cases htr with
  | cycle _ h' => exact ⟨rfl, h'⟩
  | input _ _ _ hwait _ => cases h.symm.trans hwait

/-- A state that waits for input has a transition for every integer that can be supplied, and no other. -/
theorem transition_of_waiting {s : State} {i : RegIdx} (h : step s = .fault (.waitingForInput i))
    (hnext : ∀ n, ∃ t, step (s.supply n) = .next t) :
    (∀ t, step s ≠ .next t) ∧ (∀ n, ∃ t, Transition s (some (.inp n)) t) ∧
      ∀ l t, Transition s l t → ∃ n, l = some (.inp n) ∧ step (s.supply n) = .next t := by
  refine ⟨fun t ht => (by cases h.symm.trans ht), fun n => (hnext n).imp fun t ht => .input s t i n h ht,
    fun l t htr => ?_⟩
  cases htr with
  | cycle _ h' => cases h.symm.trans h'
  | input _ _ n _ ht => exact ⟨n, rfl, ht⟩

/-- Only a running machine has a transition. -/
theorem Transition.running {s t : State} {l : Option Event} (h : Transition s l t) : s.state = .running := by
  cases h with
  | cycle _ h => exact (step_cases h).1
  | input _ _ _ h _ => exact (step_waiting_iff.mp h).1

/-- A machine that meets the invariant and is at another word than an RDD has a step. -/
theorem Inv.step_next_of_not_rdd {s : State} {w : Word} (h : Inv s) (hr : s.state = .running) (hw : s.waiting = none)
    (hf : s.fetchWord = .ok w) (hd : (decodeWord w).opcode ≠ .rdd) : ∃ t, step s = .next t := by
  obtain hnext | ⟨i, hi⟩ := h.step_next_or_waits hr
  · exact hnext
  · obtain ⟨-, -, hwi | ⟨-, -, v, hv, hdv⟩⟩ := step_waiting_iff.mp hi
    · cases hw.symm.trans hwi
    · cases hf.symm.trans hv
      exact absurd (congrArg Instr.opcode hdv) hd

/-- Settles O51: a machine that meets the invariant either has its own step or waits, never both. -/
theorem transitionsAreLabelledCycles : Obligations.TransitionsAreLabelledCycles := by
  refine ⟨fun s l t hn h => hn h.running, fun s w h hr hw hf => ?_, fun s i hr hw hq => ?_⟩
  · have hin := h.fetchInside hr hw
    have hlabel := State.label_of_ready hw hin hf
    refine ⟨fun i hd => ?_, fun i hd hq => ?_, fun hp hrd => ?_⟩
    · obtain ⟨t, ht⟩ := h.step_next_of_not_rdd hr hw hf (by rw [hd]; nofun)
      have hout : s.label = some (.out i (s.reg i)) := by rw [hlabel, hd]; rfl
      exact hout ▸ transition_of_next ht
    · exact transition_of_waiting ((step_waiting_iff_of_ready hr hw hin hf).mpr ⟨hd, hq⟩)
        fun n => (h.supply n).step_next_of_input hr (s.supply_input_ne_nil n)
    · obtain ⟨t, ht⟩ := h.step_next_of_not_rdd hr hw hf hrd
      rw [cycleLabel_eq_none s hp hrd] at hlabel
      exact hlabel ▸ transition_of_next ht
  · exact transition_of_waiting ((step_waiting_iff_of_waiting hr hw).mpr ⟨rfl, hq⟩)
      fun n => ⟨_, step_of_waiting_supplied hr hw (s.supply_input_ne_nil n)⟩

/-! ### The branch to itself -/

theorem State.continueRun_of_inside {s : State} (hin : s.pc.toNat < s.len.toNat) : s.continueRun = s := by
  rw [State.continueRun_eq, State.continueRun_state_of_inside hin]

/-- One cycle of a taken branch to its own address leaves only its word in `ir`. -/
theorem step_of_self_branch {s : State} {w : Word} {i j : RegIdx} {a : Addr5} (hr : s.state = .running)
    (hw : s.waiting = none) (hin : s.pc.toNat < s.len.toNat) (hf : s.fetchWord = .ok w) (hd : decodeWord w = .blt i j a)
    (hself : a.toNat = s.pc.toNat) (ha : a.toNat % 2 = 0) (hlt : (s.reg i).toNat < (s.reg j).toNat) :
    step s = .next { s with ir := w } := by
  have hpc : branchTarget a = s.pc := BitVec.eq_of_toNat_eq ((branchTarget_toNat a).trans hself)
  have hu : exec (decodeWord w) (s.advance w) = .next { s with ir := w } := by
    rw [hd, exec_blt_taken (s := s.advance w) ha hlt, hpc]
    rfl
  rw [step_of_cycle hr hw hin hf hu hw, State.continueRun_of_inside (s := { s with ir := w }) hin]

/-- A state that is its own next state stays for any number of steps. -/
theorem run_of_step_self {s : State} (h : step s = .next s) (k : Nat) : Host.Core.run core k s = .next s := by
  induction k with
  | zero => exact run_zero s
  | succ k ih => rw [run_succ h, ih]

/-- Settles O49: the first cycle takes the word into `ir`, and every later one changes nothing. -/
theorem selfBranchNeverEnds : Obligations.SelfBranchNeverEnds := by
  intro s w i j a k hr hw hin hf hd hself ha hlt
  rw [run_succ (step_of_self_branch hr hw hin hf hd hself ha hlt)]
  exact run_of_step_self (step_of_self_branch (s := { s with ir := w }) hr hw hin hf hd hself ha hlt) k

end Sys2Proof.Machine
end

section
/-! Text: the lines that assemble, the assembler on what is written, the lengths, and the listing (30_encoding.md R83 to
R87). -/

namespace Sys2Proof.Machine

/-! ### Lines -/

/-- The line of every instruction is read back as it (R83, R84). -/
theorem lineInstr_toLine (i : Instr) : lineInstr i.toLine = some i := by
  cases i with
  | ldi i imm => exact (Laws.SourceForm.ldi i imm).2
  | add i j k => exact (Laws.SourceForm.add i j k).2
  | and i j k => exact (Laws.SourceForm.and i j k).2
  | or i j k => exact (Laws.SourceForm.or i j k).2
  | xor i j k => exact (Laws.SourceForm.xor i j k).2
  | prt i => exact (Laws.SourceForm.prt i).2
  | rdd i => exact (Laws.SourceForm.rdd i).2
  | blt i j a => exact (Laws.SourceForm.blt i j a).2

theorem exists_eq_reg_of_isReg {o : Operand} (h : o.isReg = true) : ∃ i : RegIdx, o = .reg i.toNat := by
  cases o with
  | reg n => exact ⟨BitVec.ofNat 4 n, by rw [BitVec.toNat_ofNat, Nat.mod_eq_of_lt (of_decide_eq_true h)]⟩
  | num n => cases h

theorem exists_eq_num_of_isImm {o : Operand} (h : o.isImm = true) : ∃ b : Byte, o = .num b.toNat := by
  cases o with
  | reg n => cases h
  | num n => exact ⟨BitVec.ofNat 8 n, by rw [BitVec.toNat_ofNat, Nat.mod_eq_of_lt (of_decide_eq_true h)]⟩

theorem exists_eq_num_of_isAddr {o : Operand} (h : o.isAddr = true) : ∃ a : Addr5, o = .num a.toNat := by
  cases o with
  | reg n => cases h
  | num n => exact ⟨BitVec.ofNat 5 n, by rw [BitVec.toNat_ofNat, Nat.mod_eq_of_lt (of_decide_eq_true h)]⟩

theorem exists_eq_of_three_regs {a b c : Operand} (h : (a.isReg && b.isReg && c.isReg) = true) :
    ∃ i j k : RegIdx, [a, b, c] = [.reg i.toNat, .reg j.toNat, .reg k.toNat] := by
  simp only [Bool.and_eq_true] at h
  obtain ⟨⟨ha, hb⟩, hc⟩ := h
  obtain ⟨i, rfl⟩ := exists_eq_reg_of_isReg ha
  obtain ⟨j, rfl⟩ := exists_eq_reg_of_isReg hb
  obtain ⟨k, rfl⟩ := exists_eq_reg_of_isReg hc
  exact ⟨i, j, k, rfl⟩

/-- A well-formed line is an instruction's: each operand in range is the number of a field. -/
theorem exists_toLine_of_wellFormed {l : Line} (h : l.wellFormed = true) : ∃ i : Instr, l = i.toLine := by
  obtain ⟨op, os⟩ := l
  unfold Line.wellFormed at h
  split at h <;> rename_i hop hos
  · obtain ⟨ha, hb⟩ := Bool.and_eq_true_iff.mp h
    obtain ⟨i, rfl⟩ := exists_eq_reg_of_isReg ha
    obtain ⟨imm, rfl⟩ := exists_eq_num_of_isImm hb
    cases hop; cases hos; exact ⟨.ldi i imm, rfl⟩
  · obtain ⟨i, j, k, e⟩ := exists_eq_of_three_regs h
    cases hop; cases hos.trans e; exact ⟨.add i j k, rfl⟩
  · obtain ⟨i, j, k, e⟩ := exists_eq_of_three_regs h
    cases hop; cases hos.trans e; exact ⟨.and i j k, rfl⟩
  · obtain ⟨i, j, k, e⟩ := exists_eq_of_three_regs h
    cases hop; cases hos.trans e; exact ⟨.or i j k, rfl⟩
  · obtain ⟨i, j, k, e⟩ := exists_eq_of_three_regs h
    cases hop; cases hos.trans e; exact ⟨.xor i j k, rfl⟩
  · obtain ⟨i, rfl⟩ := exists_eq_reg_of_isReg h
    cases hop; cases hos; exact ⟨.prt i, rfl⟩
  · obtain ⟨i, rfl⟩ := exists_eq_reg_of_isReg h
    cases hop; cases hos; exact ⟨.rdd i, rfl⟩
  · obtain ⟨hab, hc⟩ := Bool.and_eq_true_iff.mp h
    obtain ⟨ha, hb⟩ := Bool.and_eq_true_iff.mp hab
    obtain ⟨i, rfl⟩ := exists_eq_reg_of_isReg ha
    obtain ⟨j, rfl⟩ := exists_eq_reg_of_isReg hb
    obtain ⟨a, rfl⟩ := exists_eq_num_of_isAddr hc
    cases hop; cases hos; exact ⟨.blt i j a, rfl⟩
  · cases h

/-- Settles O8: a line that assembles is well formed, so it is some instruction's, which it assembles to. -/
theorem onlyLinesInRangeAssemble : Obligations.OnlyLinesInRangeAssemble := by
  refine fun l i => ⟨fun h => ?_, fun h => h ▸ lineInstr_toLine i⟩
  have hwf : l.wellFormed = true := by
    by_contra hn
    rw [lineInstr, if_neg hn] at h
    cases h
  obtain ⟨k, rfl⟩ := exists_toLine_of_wellFormed hwf
  rw [lineInstr_toLine, Option.some.injEq] at h
  rw [h]

/-! ### The assembler reads what is written -/

theorem space_not_mem_decimal (n : Nat) : ' ' ∉ decimal n := fun h =>
  absurd (Nat.isDigit_of_mem_toDigits (by decide) (by decide) h) (by decide)

theorem digitsValue_eq_ofDigitChars (cs : List Char) (acc : Nat) : digitsValue acc cs = Nat.ofDigitChars 10 cs acc := by
  induction cs generalizing acc with
  | nil => exact Nat.ofDigitChars_nil.symm
  | cons c cs ih => exact (ih _).trans Nat.ofDigitChars_cons.symm

theorem parseNumber_decimal (n : Nat) : parseNumber (decimal n) = some n := by
  have hvalue : digitsValue 0 (decimal n) = n := by
    rw [digitsValue_eq_ofDigitChars]; exact Nat.ofDigitChars_ten_toDigits
  rw [parseNumber, hvalue, if_pos rfl]

/-- An operand is read back: the text of a number begins with a digit, which is no `R`. -/
theorem parseOperand_operandText (o : Operand) : parseOperand (operandText o) = some o := by
  cases o with
  | reg n => rw [operandText, parseOperand, if_pos rfl, parseNumber_decimal]; rfl
  | num n =>
    obtain ⟨c, cs, hcs⟩ := List.exists_cons_of_ne_nil (l := decimal n) Nat.toDigits_ne_nil
    have hc : c ≠ 'R' := fun e => absurd
      (Nat.isDigit_of_mem_toDigits (b := 10) (n := n) (c := c) (by decide) (by decide)
        (show c ∈ decimal n from hcs ▸ List.mem_cons_self))
      (e ▸ by decide)
    rw [operandText, hcs, parseOperand, if_neg hc, ← hcs, parseNumber_decimal]
    rfl

theorem parseOperands_map_operandText (os : List Operand) : parseOperands (os.map operandText) = some os := by
  induction os with
  | nil => rfl
  | cons o os ih => rw [List.map_cons, parseOperands, parseOperand_operandText, ih]

theorem parseOpcode_opcodeName (o : Opcode) : parseOpcode (opcodeName o) = some o := by cases o <;> rfl

theorem space_not_mem_opcodeName (o : Opcode) : ' ' ∉ opcodeName o := by cases o <;> decide

theorem space_not_mem_operandText (o : Operand) : ' ' ∉ operandText o := by
  cases o with
  | reg n => exact List.not_mem_cons_of_ne_of_not_mem (by decide) (space_not_mem_decimal n)
  | num n => exact space_not_mem_decimal n

theorem tokens_ne_nil (cs : List Char) : tokens cs ≠ [] := by
  cases cs with
  | nil => nofun
  | cons c cs =>
    rw [tokens]
    split
    · nofun
    · split <;> nofun

theorem tokens_space (cs : List Char) : tokens (' ' :: cs) = [] :: tokens cs := by
  obtain ⟨t, ts, h⟩ := List.exists_cons_of_ne_nil (tokens_ne_nil cs)
  rw [tokens, h]; exact if_pos rfl

theorem tokens_cons {c : Char} {cs t : List Char} {ts : List (List Char)} (hc : c ≠ ' ') (h : tokens cs = t :: ts) :
    tokens (c :: cs) = (c :: t) :: ts := by
  rw [tokens, h]; exact if_neg hc

/-- Text without a space is one token. -/
theorem tokens_of_no_space {m : List Char} (h : ' ' ∉ m) : tokens m = [m] := by
  induction m with
  | nil => rfl
  | cons c m ih =>
    obtain ⟨hc, hm⟩ := List.ne_and_not_mem_of_not_mem_cons h
    exact tokens_cons (Ne.symm hc) (ih hm)

/-- A space ends the token before it. -/
theorem tokens_append_space {m : List Char} (h : ' ' ∉ m) (cs : List Char) :
    tokens (m ++ ' ' :: cs) = m :: tokens cs := by
  induction m with
  | nil => exact tokens_space cs
  | cons c m ih =>
    obtain ⟨hc, hm⟩ := List.ne_and_not_mem_of_not_mem_cons h
    exact tokens_cons (Ne.symm hc) (ih hm)

/-- A token and operands after single spaces are cut into just these. -/
theorem tokens_operands {m : List Char} (h : ' ' ∉ m) (os : List Operand) :
    tokens (m ++ os.flatMap fun o => ' ' :: operandText o) = m :: os.map operandText := by
  induction os generalizing m with
  | nil => rw [List.flatMap_nil, List.append_nil]; exact tokens_of_no_space h
  | cons o os ih =>
    rw [List.flatMap_cons, List.cons_append, tokens_append_space h, ih (space_not_mem_operandText o), List.map_cons]

/-- The text of every line, in range or not, is read back as the line. -/
theorem parseLine_lineText (l : Line) : parseLine (lineText l) = some l := by
  rw [parseLine, lineText, tokens_operands (space_not_mem_opcodeName l.op)]
  simp only [parseOpcode_opcodeName, parseOperands_map_operandText]

/-- Settles O7: the text is read back as the instruction's line, and the line as the instruction. -/
theorem assembleWhatIsWritten : Obligations.AssembleWhatIsWritten := fun i => by
  rw [assemble, instrText, parseLine_lineText]
  exact lineInstr_toLine i

/-! ### Lengths -/

theorem decimal_length_le {n k : Nat} (hk : 0 < k) (h : n < 10 ^ k) : (decimal n).length ≤ k :=
  (Nat.length_toDigits_le_iff (by decide) hk).mpr h

theorem operandText_reg_length_le (i : RegIdx) : (operandText (.reg i.toNat)).length ≤ 3 :=
  Nat.succ_le_succ (decimal_length_le (k := 2) (by decide) (by omega))

theorem operandText_num_length_le {n : Nat} (h : n < 1000) : (operandText (.num n)).length ≤ 3 :=
  decimal_length_le (by decide) h

/-- No operand of an instruction is longer than `R15` or `255`. -/
theorem operandText_toLine_length_le (i : Instr) : ∀ o ∈ i.toLine.operands, (operandText o).length ≤ 3 := by
  have hreg := operandText_reg_length_le
  cases i with
  | ldi i imm =>
    have himm := operandText_num_length_le (n := imm.toNat) (by omega)
    simp [Instr.toLine, hreg, himm]
  | blt i j a =>
    have haddr := operandText_num_length_le (n := a.toNat) (by omega)
    simp [Instr.toLine, hreg, haddr]
  | _ => simp [Instr.toLine, hreg]

theorem toLine_operands_length_le (i : Instr) : i.toLine.operands.length ≤ 3 := by
  cases i <;> simp [Instr.toLine]

theorem opcodeName_length_le (o : Opcode) : (opcodeName o).length ≤ 3 := by cases o <;> decide

/-- A mnemonic of at most three letters and at most three operands, each a space and at most three characters (R87). -/
theorem instrText_length_le (i : Instr) : (instrText i).length ≤ 15 := by
  have hname := opcodeName_length_le i.toLine.op
  have hcount := toLine_operands_length_le i
  have hoperands := List.sum_le_card_nsmul (i.toLine.operands.map fun o => (' ' :: operandText o).length) 4
    (List.forall_mem_map.mpr fun o ho => Nat.succ_le_succ (operandText_toLine_length_le i o ho))
  rw [List.length_map, smul_eq_mul] at hoperands
  rw [instrText, lineText, List.length_append, List.length_flatMap]
  omega

/-- Settles O9: an offset below 32 has at most two digits, and a colon and a space follow it. -/
theorem textLengthsBounded : Obligations.TextLengthsBounded := by
  refine ⟨instrText_length_le, fun m offset h => ?_⟩
  have hoffset : (decimal offset).length ≤ 2 := decimal_length_le (by decide) (by omega)
  have htext := instrText_length_le (decodeWord (wordOfBytes (m.byteAt offset) (m.byteAt (offset + 1))))
  simp only [listingLine, List.length_append, List.length_cons, List.length_nil]
  omega

/-! ### The listing -/

/-- Settles O10: the bytes of each whole word are the image's. -/
theorem listingShowsEachWholeWord : Obligations.ListingShowsEachWholeWord := by
  intro image s h
  obtain ⟨hle, rfl⟩ := loadImage_next h
  have hlen := loadedState_len hle
  refine ⟨by rw [listing, List.length_map, List.length_range, hlen], fun n hi lo hhi hlo => ?_⟩
  have hn : 2 * n + 1 < image.length := (List.getElem?_eq_some_iff.mp hlo).1
  have hline : n < (loadedState image).len.toNat / 2 := by omega
  have hbyte {k : Nat} {b : Byte} (hb : image[k]? = some b) : (loadedState image).mem.byteAt k = b := by
    rw [loadedState_byteAt hle, List.getD_eq_getElem?_getD, hb, Option.getD_some]
  rw [listing, List.getElem?_map, List.getElem?_range hline, Option.map_some, listingLine, hbyte hhi, hbyte hlo]

end Sys2Proof.Machine
end
